-- ==== Sys2Proof/Word.lean ====
section
/-! DEFINITION. The word types of the cpubook CORE (spec/00_scope.md R7, R9, R10). -/

namespace Sys2Proof

/-- An instruction word, a register, a data word or the program counter: 16 bits (R7, R10). -/
abbrev Word := BitVec 16

/-- An 8-bit immediate value or word address (R7, R53), and one half of a word. -/
abbrev Byte := BitVec 8

/-- A register index, 0 to 7, as the fields rA and rB hold it (R49, R51, R52). -/
abbrev RegIx := BitVec 3

/-- The value of the opcode field w[15:11] (R49, R50). -/
abbrev Opcode := BitVec 5

end Sys2Proof
end

