-- ==== Sys2Proof/Config.lean ====
section
/-! DEFINITION. The sizes of the CORE (spec/00_scope.md R7: every one fixed by the source, none left to
an implementation) and the address the host reports (R8). The opcode table `opcodeOf` of R8 and R57 is a
configuration too; it stands at the top of Sys2Proof/Decode.lean (log entry 1). The spec leaves no value
open inside the CORE, so there is no opaque constant here. -/

namespace Sys2Proof.Config

/-- NREG: the number of general registers (R7). -/
abbrev numRegs : Nat := 8

/-- IMEM_WORDS: the words of the instruction store, addresses 0 to 255 (R7, R25). -/
abbrev imemWords : Nat := 256

/-- DMEM_WORDS: the words of the data store, addresses 0 to 255 (R7, R26). -/
abbrev dmemWords : Nat := 256

/-- NOPS: the number of assigned operations, opcode values 0 to 15 (R7). -/
abbrev numOps : Nat := 16

/-- RESULT_ADDR: the data-store address the host reports after the run (R8, R121; D14). -/
abbrev resultAddr : Byte := 64

end Sys2Proof.Config
end

