-- ==== Sys2Proof/Syntax.lean ====
section
/-! DEFINITION. The instructions: one constructor for each row of spec/opcode_table.json, in its order. -/

namespace Sys2Proof

/-- An instruction of the cpubook ISA with the operands its format encodes (spec/30_encoding.md R55).
Bits a format does not use are not part of the instruction (R56). -/
inductive Instr where
  /-- MOV rA, rB: opcode 0, format RR (R79). -/
  | mov (rA rB : RegIx)
  /-- ADD rA, rB: opcode 1, format RR (R80). -/
  | add (rA rB : RegIx)
  /-- SUB rA, rB: opcode 2, format RR (R81). -/
  | sub (rA rB : RegIx)
  /-- AND rA, rB: opcode 3, format RR (R82). -/
  | and (rA rB : RegIx)
  /-- OR rA, rB: opcode 4, format RR (R83). -/
  | or (rA rB : RegIx)
  /-- SL rA: opcode 5, format R (R85). -/
  | sl (rA : RegIx)
  /-- SR rA: opcode 6, format R (R86). -/
  | sr (rA : RegIx)
  /-- SRA rA: opcode 7, format R (R87). -/
  | sra (rA : RegIx)
  /-- LDL rA, imm8: opcode 8, format RI (R88). -/
  | ldl (rA : RegIx) (imm8 : Byte)
  /-- LDH rA, imm8: opcode 9, format RI (R89). -/
  | ldh (rA : RegIx) (imm8 : Byte)
  /-- CMP rA, rB: opcode 10, format RR (R90). -/
  | cmp (rA rB : RegIx)
  /-- JE target: opcode 11, format J (R91). -/
  | je (target : Byte)
  /-- JMP target: opcode 12, format J (R92). -/
  | jmp (target : Byte)
  /-- LD rA, addr8: opcode 13, format RM (R94). -/
  | ld (rA : RegIx) (addr8 : Byte)
  /-- ST rA, addr8: opcode 14, format RM (R95). -/
  | st (rA : RegIx) (addr8 : Byte)
  /-- HLT: opcode 15, format N (R96). -/
  | hlt
  /-- An unassigned opcode, with its field value, 16 to 31 (R59, R97). -/
  | unassigned (opcode : Opcode)
deriving DecidableEq, Repr

end Sys2Proof
end

