-- ==== Sys2Proof/WellFormed.lean ====
section
/-! DEFINITION. Which terms of `Instr` stand for an instruction word. The operand types already bound
register indices and byte operands (spec/30_encoding.md R49), so one check remains. -/

namespace Sys2Proof

/-- An unassigned opcode holds a field value that selects no operation, 16 to 31 (R57, R59); every
other term is well-formed. -/
def Instr.wf : Instr → Bool
  | .unassigned c => decide (Config.numOps ≤ c.toNat)
  | .mov _ _ | .add _ _ | .sub _ _ | .and _ _ | .or _ _ | .sl _ | .sr _ | .sra _ | .ldl _ _ | .ldh _ _
  | .cmp _ _ | .je _ | .jmp _ | .ld _ _ | .st _ _ | .hlt => true

end Sys2Proof
end

