-- ==== Sys2Proof/Decode.lean ====
section
/-! DEFINITION. The opcode table, the decoder and the encoder (spec/30_encoding.md). The decoder is a
total function of the word (R54); the encoder follows R61, and the assembler functions over it refuse an
operand that does not fit (R62). -/

namespace Sys2Proof

/-! ## The opcode table -/

/-- The 16 operations, in the order the source lists them (R57). -/
inductive Op where
  | mov | add | sub | and | or | sl | sr | sra | ldl | ldh | cmp | je | jmp | ld | st | hlt
deriving DecidableEq, Repr

/-- The configuration table `opcodeOf` (R8, R57; D1): the opcode value of each operation. -/
def opcodeOf : Op → Opcode
  | .mov => 0
  | .add => 1
  | .sub => 2
  | .and => 3
  | .or => 4
  | .sl => 5
  | .sr => 6
  | .sra => 7
  | .ldl => 8
  | .ldh => 9
  | .cmp => 10
  | .je => 11
  | .jmp => 12
  | .ld => 13
  | .st => 14
  | .hlt => 15

/-- Every operation, in the order of R57. -/
def allOps : List Op :=
  [.mov, .add, .sub, .and, .or, .sl, .sr, .sra, .ldl, .ldh, .cmp, .je, .jmp, .ld, .st, .hlt]

/-- The six formats (R55). -/
inductive Format where
  | rr | r | ri | j | rm | n
deriving DecidableEq, Repr

/-- The format of each operation (R55, R57). -/
def formatOf : Op → Format
  | .mov | .add | .sub | .and | .or | .cmp => .rr
  | .sl | .sr | .sra => .r
  | .ldl | .ldh => .ri
  | .je | .jmp => .j
  | .ld | .st => .rm
  | .hlt => .n

/-- The operation an opcode value selects, if any: the value is compared with the table and nothing else
takes part (R58); a value of no operation selects none (R59). -/
def opOf (c : Opcode) : Option Op := allOps.find? fun op => opcodeOf op == c

/-! ## The fields of a word -/

/-- opc(w) = w[15:11] (R50). -/
def opc (w : Word) : Opcode := w.extractLsb' 11 5

/-- ra(w) = w[10:8] (R51). -/
def ra (w : Word) : RegIx := w.extractLsb' 8 3

/-- rb(w) = w[7:5] (R52). -/
def rb (w : Word) : RegIx := w.extractLsb' 5 3

/-- imm(w) = w[7:0] (R53). -/
def imm (w : Word) : Byte := w.extractLsb' 0 8

/-! ## The decoder -/

/-- The instruction of an operation, with the fields its format uses (R55); the other bits are ignored
(R56). -/
def instrOf (op : Op) (w : Word) : Instr :=
  match op with
  | .mov => .mov (ra w) (rb w)
  | .add => .add (ra w) (rb w)
  | .sub => .sub (ra w) (rb w)
  | .and => .and (ra w) (rb w)
  | .or => .or (ra w) (rb w)
  | .sl => .sl (ra w)
  | .sr => .sr (ra w)
  | .sra => .sra (ra w)
  | .ldl => .ldl (ra w) (imm w)
  | .ldh => .ldh (ra w) (imm w)
  | .cmp => .cmp (ra w) (rb w)
  | .je => .je (imm w)
  | .jmp => .jmp (imm w)
  | .ld => .ld (ra w) (imm w)
  | .st => .st (ra w) (imm w)
  | .hlt => .hlt

/-- The decoder: total, with no illegal word (R54, R60). -/
def decode (w : Word) : Instr :=
  match opOf (opc w) with
  | some op => instrOf op w
  | none => .unassigned (opc w)

/-! ## Words as pairs of stored bytes

The stores are kept in the host's form, byte cells, two to a word, the low byte first (log entry 2). No
rule of the spec observes that order (spec/20_memory.md R32). -/

/-- The low byte of a word, v[7:0] (spec/00_scope.md R9). -/
def lowByte (v : Word) : Byte := v.extractLsb' 0 8

/-- The high byte of a word, v[15:8] (spec/00_scope.md R9). -/
def highByte (v : Word) : Byte := v.extractLsb' 8 8

/-- The word whose high and low bytes are given. -/
def wordOfBytes (hi lo : Byte) : Word := hi ++ lo

/-- Why a list of bytes is no instruction. -/
inductive DecodeError where
  /-- Fewer than the two bytes of one word are given. No word is refused (R54). -/
  | truncated
deriving DecidableEq, Repr

/-- Reads one instruction from bytes laid out as the stores keep them, and answers the bytes left. -/
def decodeBytes : List Byte → Except DecodeError (Instr × List Byte)
  | lo :: hi :: rest => .ok (decode (wordOfBytes hi lo), rest)
  | [_] => .error .truncated
  | [] => .error .truncated

/-- The instruction word whose first `nbits` bits are those of `w`, every bit above them 0. -/
def tableWord (nbits w : Nat) : Word := BitVec.ofNat 16 (w % 2 ^ nbits)

/-- The instruction the decoder reads from an instruction whose bits are `w`, numbered as
spec/opcode_table.json numbers them. -/
def decodeTableWord (nbits w : Nat) : Option Instr :=
  match decodeBytes [lowByte (tableWord nbits w), highByte (tableWord nbits w)] with
  | .ok (i, _) => some i
  | .error _ => none

/-! ## The encoder -/

/-- enc_rr: opcode, rA, rB, low five bits zero (R61). -/
def encRR (op : Op) (a b : RegIx) : Word := opcodeOf op ++ a ++ b ++ (0#5 : BitVec 5)

/-- enc_r: opcode, rA, low eight bits zero (R61). -/
def encR (op : Op) (a : RegIx) : Word := opcodeOf op ++ a ++ (0#8 : BitVec 8)

/-- enc_ri: opcode, rA, the 8-bit value (R61). -/
def encRI (op : Op) (a : RegIx) (v : Byte) : Word := opcodeOf op ++ a ++ v

/-- enc_j: opcode, three zero bits, the 8-bit target (R61). -/
def encJ (op : Op) (t : Byte) : Word := opcodeOf op ++ (0#3 : BitVec 3) ++ t

/-- enc_rm: opcode, rA, the 8-bit address (R61). -/
def encRM (op : Op) (a : RegIx) (addr : Byte) : Word := opcodeOf op ++ a ++ addr

/-- enc_n: opcode only (R61). -/
def encN (op : Op) : Word := opcodeOf op ++ (0#11 : BitVec 11)

/-- The word of an instruction, unused bits zero (R55, R61). The source has no encoder for an unassigned
opcode; its word here is the field value with the other bits zero (log entry 9). -/
def encode : Instr → Word
  | .mov a b => encRR .mov a b
  | .add a b => encRR .add a b
  | .sub a b => encRR .sub a b
  | .and a b => encRR .and a b
  | .or a b => encRR .or a b
  | .sl a => encR .sl a
  | .sr a => encR .sr a
  | .sra a => encR .sra a
  | .ldl a v => encRI .ldl a v
  | .ldh a v => encRI .ldh a v
  | .cmp a b => encRR .cmp a b
  | .je t => encJ .je t
  | .jmp t => encJ .jmp t
  | .ld a addr => encRM .ld a addr
  | .st a addr => encRM .st a addr
  | .hlt => encN .hlt
  | .unassigned c => c ++ (0#11 : BitVec 11)

/-- The opcode value that selects an instruction (R57, R59). -/
def Instr.opcode : Instr → Opcode
  | .mov _ _ => opcodeOf .mov
  | .add _ _ => opcodeOf .add
  | .sub _ _ => opcodeOf .sub
  | .and _ _ => opcodeOf .and
  | .or _ _ => opcodeOf .or
  | .sl _ => opcodeOf .sl
  | .sr _ => opcodeOf .sr
  | .sra _ => opcodeOf .sra
  | .ldl _ _ => opcodeOf .ldl
  | .ldh _ _ => opcodeOf .ldh
  | .cmp _ _ => opcodeOf .cmp
  | .je _ => opcodeOf .je
  | .jmp _ => opcodeOf .jmp
  | .ld _ _ => opcodeOf .ld
  | .st _ _ => opcodeOf .st
  | .hlt => opcodeOf .hlt
  | .unassigned c => c

/-- The bits of its words that an instruction's format uses, the opcode field among them; the others are
the `x` bits of R55, which the decoder ignores (R56). -/
def Instr.usedBits : Instr → Word
  | .mov _ _ | .add _ _ | .sub _ _ | .and _ _ | .or _ _ | .cmp _ _ => 0xFFE0
  | .sl _ | .sr _ | .sra _ => 0xFF00
  | .ldl _ _ | .ldh _ _ | .ld _ _ | .st _ _ => 0xFFFF
  | .je _ | .jmp _ => 0xF8FF
  | .hlt | .unassigned _ => 0xF800

/-! ## The assembler functions

An operand that does not fit its field is refused and no word is produced (R62; D15). -/

/-- Why the assembler refuses (R62, and R64 for a line of text). -/
inductive AsmError where
  /-- A register index outside 0 to 7 (R62). -/
  | registerOutOfRange (n : Nat)
  /-- A value, target or address outside 0 to 255 (R62). -/
  | valueOutOfRange (n : Nat)
  /-- The line's first word is no mnemonic of R57. -/
  | unknownMnemonic
  /-- The operands are not those of the mnemonic's form (R64). -/
  | wrongOperands
  /-- What stands before the colon is no label name (log entry 8). -/
  | badLabel
  /-- A target names a label that no line defines. -/
  | undefinedLabel
  /-- Two lines define one label (log entry 8). -/
  | duplicateLabel
deriving DecidableEq, Repr

/-- A register index that fits its field, or the refusal of R62. -/
def checkReg (n : Nat) : Except AsmError RegIx :=
  if n ≤ 7 then .ok (BitVec.ofNat 3 n) else .error (.registerOutOfRange n)

/-- A value, target or address that fits its field, or the refusal of R62. -/
def checkValue (n : Nat) : Except AsmError Byte :=
  if n ≤ 255 then .ok (BitVec.ofNat 8 n) else .error (.valueOutOfRange n)

/-- The assembler's enc_rr (R61, R62). -/
def asmRR (op : Op) (a b : Nat) : Except AsmError Word :=
  match checkReg a, checkReg b with
  | .ok ra, .ok rb => .ok (encRR op ra rb)
  | .error e, _ => .error e
  | .ok _, .error e => .error e

/-- The assembler's enc_r (R61, R62). -/
def asmR (op : Op) (a : Nat) : Except AsmError Word :=
  match checkReg a with
  | .ok ra => .ok (encR op ra)
  | .error e => .error e

/-- The assembler's enc_ri (R61, R62). -/
def asmRI (op : Op) (a v : Nat) : Except AsmError Word :=
  match checkReg a, checkValue v with
  | .ok ra, .ok v8 => .ok (encRI op ra v8)
  | .error e, _ => .error e
  | .ok _, .error e => .error e

/-- The assembler's enc_j (R61, R62). -/
def asmJ (op : Op) (t : Nat) : Except AsmError Word :=
  match checkValue t with
  | .ok t8 => .ok (encJ op t8)
  | .error e => .error e

/-- The assembler's enc_rm (R61, R62). -/
def asmRM (op : Op) (a addr : Nat) : Except AsmError Word :=
  match checkReg a, checkValue addr with
  | .ok ra, .ok addr8 => .ok (encRM op ra addr8)
  | .error e, _ => .error e
  | .ok _, .error e => .error e

/-- The assembler's enc_n (R61). -/
def asmN (op : Op) : Except AsmError Word := .ok (encN op)

end Sys2Proof
end

