-- ==== Sys2Proof/Machine/State.lean ====
section
/-! DEFINITION. The whole state of the CORE (spec/10_state.md), the ways a step can stop, and the state
after reset. -/

namespace Sys2Proof.Machine

/-- The run state of the execution state machine (R23). -/
inductive RunState where
  /-- Instructions are executed. -/
  | running
  /-- HLT has executed; final (R73, R75). -/
  | halted
  /-- A fetch was made outside the instruction store; final, and no successful end (R99, R100). -/
  | faulted
deriving DecidableEq, Repr

/-- A store: byte cells, addresses rising, no cell listed whose byte is the 0 that an unlisted address
reads as (R17, R29). Word `a` of a store lies in the cells 2a (low byte) and 2a + 1 (log entry 2). -/
abbrev Memory := List Host.Cell

/-- The complete state: the tuple (x[0..7], pc, flag, run, IMem, DMem); nothing else is state (R28). -/
structure State where
  /-- The general registers x[0] to x[7] (R15). -/
  regs : Vector Word Config.numRegs
  /-- The program counter: the address of the next instruction to fetch (R18). -/
  pc : Word
  /-- The comparison flag (R21). -/
  flag : Bool
  /-- The run state (R23). -/
  run : RunState
  /-- The instruction store IMem, read by fetch only (R25). -/
  imem : Memory
  /-- The data store DMem, reached by LD and ST only (R26). -/
  dmem : Memory
deriving DecidableEq, Repr

/-- What stops the machine: the two run states from which no step exists (R73). -/
inductive Fault where
  /-- Raised by `step` in the run state HALTED: the machine has ended its run and no step exists (R66,
  R75). Safe: the state does not move. -/
  | halted
  /-- Raised by `step` in the run state FAULTED: the machine has stopped by FetchOutOfRange, the fault
  with cause code 1, at the recorded pc (R99, R100). Safe: the state does not move. -/
  | fetchOutOfRange (pc : Word)
deriving DecidableEq, Repr

/-- Why an instruction has no meaning. No instruction of this model is refused. -/
inductive Refusal where
  /-- Raised by an arm of `exec` that has no meaning yet; no arm is one. Safe: nothing is said of the
  instruction. -/
  | notModelled (mnemonic : String)
deriving DecidableEq, Repr

/-- The machine after construction: every register, pc, flag and every word of both stores 0, the run
state RUNNING (R29, R114). -/
def State.reset : State where
  regs := Vector.replicate Config.numRegs 0
  pc := 0
  flag := false
  run := .running
  imem := []
  dmem := []

end Sys2Proof.Machine
end

