-- ==== Sys2Proof/Machine/Ops.lean ====
section
/-! DEFINITION. The state access primitives of spec/00_scope.md R11: the two stores, the registers, the
program counter, the flag, the run state, and the one fault. There is no trap entry and no trap return
(spec/60_exceptions.md R103, R104): the fault stops the machine and nothing returns from it. -/

namespace Sys2Proof.Machine

/-! ## One byte cell of a store -/

/-- The byte at a cell address; an unlisted cell reads 0 (R17, R29). -/
def Memory.readByte : Memory → Nat → Byte
  | [], _ => 0
  | (k, v) :: m, n => if k = n then v else Memory.readByte m n

/-- Writes one cell, keeping the addresses rising and listing no zero byte. -/
def Memory.writeByte : Memory → Nat → Byte → Memory
  | [], n, b => if b = 0 then [] else [(n, b)]
  | (k, v) :: m, n, b =>
    if n < k then (if b = 0 then (k, v) :: m else (n, b) :: (k, v) :: m)
    else if n = k then (if b = 0 then m else (n, b) :: m)
    else (k, v) :: Memory.writeByte m n b

/-- The canonical form of a store of 256 words: cell addresses strictly rising and inside the store, no
cell listed that reads as an unlisted one does. -/
abbrev Memory.wf (m : Memory) : Prop :=
  m.Pairwise (fun c d => c.1 < d.1) ∧ ∀ c ∈ m, c.1 < 2 * Config.dmemWords ∧ c.2 ≠ 0

/-! ## One word of a store -/

/-- The cell address of the low byte of word `a`. -/
def lowCell (a : Byte) : Nat := 2 * a.toNat

/-- The cell address of the high byte of word `a`. -/
def highCell (a : Byte) : Nat := 2 * a.toNat + 1

/-- Reads word `a` of a store, whole (R31, R34). -/
def Memory.readWord (m : Memory) (a : Byte) : Word :=
  wordOfBytes (m.readByte (highCell a)) (m.readByte (lowCell a))

/-- Writes word `a` of a store, whole (R31, R34). -/
def Memory.writeWord (m : Memory) (a : Byte) (v : Word) : Memory :=
  (m.writeByte (lowCell a) (lowByte v)).writeByte (highCell a) (highByte v)

/-! ## The registers -/

/-- x[i] (R11). -/
def State.reg (s : State) (i : RegIx) : Word := s.regs[i.toNat]'i.isLt

/-- x[i] <- v (R11): one register is written, none is hardwired (R15). -/
def State.setReg (s : State) (i : RegIx) (v : Word) : State :=
  { s with regs := s.regs.set i.toNat v i.isLt }

/-! ## The program counter, the flag and the run state -/

/-- zext_16(v) of an 8-bit value (R10, R53). -/
def zext16 (v : Byte) : Word := v.setWidth 16

/-- pc <- target (R11). -/
def State.setPc (s : State) (target : Word) : State := { s with pc := target }

/-- pc <- pc + 1, before the instruction executes (spec/40_execution_cycle.md R69). -/
def State.advance (s : State) : State := s.setPc (s.pc + 1)

/-- flag <- b (R11). -/
def State.setFlag (s : State) (b : Bool) : State := { s with flag := b }

/-- run <- r (R11). -/
def State.setRun (s : State) (r : RunState) : State := { s with run := r }

/-! ## The stores as the CORE reaches them -/

/-- IFetch(pc): the word at pc of the instruction store, defined for pc in 0 to 255 only (R11, R39, R67). -/
def State.iFetch (s : State) : Option Word :=
  if s.pc.toNat < Config.imemWords then some (s.imem.readWord (s.pc.setWidth 8)) else none

/-- MemRead(a, 1): one word of the data store (R11). -/
def State.memRead (s : State) (a : Byte) : Word := s.dmem.readWord a

/-- MemWrite(a, 1, v): one word of the data store (R11). -/
def State.memWrite (s : State) (a : Byte) (v : Word) : State :=
  { s with dmem := s.dmem.writeWord a v }

/-! ## The fault -/

/-- raise FetchOutOfRange(pc): run <- FAULTED, nothing else changes, and the kept pc is the record of the
faulting address (spec/60_exceptions.md R99, R103). -/
def State.raiseFetchOutOfRange (s : State) : State := s.setRun .faulted

/-- The fault's record: cause code 1 and the faulting address, once the machine has faulted (R99). -/
def State.faultRecord (s : State) : Option (Nat × Word) :=
  match s.run with
  | .faulted => some (1, s.pc)
  | .running => none
  | .halted => none

/-! ## Placing an instruction where the next step fetches -/

/-- The state whose next step fetches the word `w`: the run state RUNNING, pc inside the store (pc itself
where it is at most 255), and `w` at that address of the instruction store (log entry 6). -/
def State.placeWord (s : State) (w : Word) : State :=
  { s with
    run := .running
    pc := zext16 (s.pc.setWidth 8)
    imem := s.imem.writeWord (s.pc.setWidth 8) w }

end Sys2Proof.Machine
end

