-- ==== Sys2Proof/Machine/Operands.lean ====
section
/-! DEFINITION. The operand forms: the two read ports and the write port of the register file
(spec/20_memory.md R43), the immediate (spec/30_encoding.md R53), the branch target
(spec/44_compare_branch.md R93), the data address (R38), and the ALU (spec/40_execution_cycle.md R78). -/

namespace Sys2Proof.Machine

/-! ## Operand forms -/

/-- Read port A: x[ra(w)], the value before the instruction writes (R43, R71). -/
def State.portA (s : State) (a : RegIx) : Word := s.reg a

/-- Read port B: x[rb(w)], the value before the instruction writes (R43, R71). -/
def State.portB (s : State) (b : RegIx) : Word := s.reg b

/-- The write port, whose index is always ra(w) (R43). -/
def State.writePort (s : State) (a : RegIx) (v : Word) : State := s.setReg a v

/-- The target of a branch: the absolute instruction address zext_16(imm(w)) (R93; D5). -/
def branchTarget (i : Byte) : Word := zext16 i

/-- The data address of LD and ST: the 8-bit field itself, absolute (R38). -/
def dataAddress (i : Byte) : Byte := i

/-! ## The ALU -/

/-- MOV: b (R78, R79). -/
def aluMov (b : Word) : Word := b

/-- ADD: (a + b) mod 2^16; the carry is lost (R78, R80). -/
def aluAdd (a b : Word) : Word := a + b

/-- SUB: (a - b) mod 2^16; the borrow is lost (R78, R81). -/
def aluSub (a b : Word) : Word := a - b

/-- AND: a & b (R78, R82). -/
def aluAnd (a b : Word) : Word := a &&& b

/-- OR: a | b (R78, R83). -/
def aluOr (a b : Word) : Word := a ||| b

/-- SL: (a << 1) & 0xFFFF (R78, R85). -/
def aluSl (a : Word) : Word := a <<< 1

/-- SR: a >> 1, zero-filled (R78, R86). -/
def aluSr (a : Word) : Word := a >>> 1

/-- SRA: (a & 0x8000) | (a >> 1), the formula the source says to reproduce exactly (R78, R87; D18). -/
def aluSra (a : Word) : Word := (a &&& 0x8000#16) ||| (a >>> 1)

/-- LDL: (a & 0xFF00) | i (R78, R88). -/
def aluLdl (a : Word) (i : Byte) : Word := (a &&& 0xFF00#16) ||| zext16 i

/-- LDH: (i << 8) | (a & 0x00FF) (R78, R89). -/
def aluLdh (a : Word) (i : Byte) : Word := (zext16 i <<< 8) ||| (a &&& 0x00FF#16)

end Sys2Proof.Machine
end

