-- ==== Sys2Proof/Machine/Flags.lean ====
section
/-! DEFINITION. The one flag computation there is (spec/10_state.md R21, R22). -/

namespace Sys2Proof.Machine

/-- CMP: 1 if the two 16-bit values are equal, else 0 (spec/40_execution_cycle.md R78,
spec/44_compare_branch.md R90). -/
def equalFlag (a b : Word) : Bool := a == b

end Sys2Proof.Machine
end

