-- ==== Sys2Proof/Machine/CompareBranch.lean ====
section
/-! DEFINITION. CMP, JE and JMP (spec/44_compare_branch.md). The pc has been advanced when a branch
executes, so a branch that is not taken leaves it and a taken one overrides it (R69, R91, R92). -/

namespace Sys2Proof.Machine

/-- CMP rA, rB: flag <- 1 if x[rA] = x[rB], else 0 (R90). -/
def execCmp (a b : RegIx) (s : State) : Host.Outcome State Fault Refusal :=
  .next (s.setFlag (equalFlag (s.portA a) (s.portB b)))

/-- JE target: if flag = 1, pc <- zext_16(target) (R91). -/
def execJe (t : Byte) (s : State) : Host.Outcome State Fault Refusal :=
  .next (if s.flag then s.setPc (branchTarget t) else s)

/-- JMP target: pc <- zext_16(target) (R92). -/
def execJmp (t : Byte) (s : State) : Host.Outcome State Fault Refusal :=
  .next (s.setPc (branchTarget t))

end Sys2Proof.Machine
end

