-- ==== Sys2Proof/Machine/Halt.lean ====
section
/-! DEFINITION. HLT and the unassigned opcodes (spec/46_halt_and_unassigned.md). -/

namespace Sys2Proof.Machine

/-- HLT: run <- HALTED; the advance of the cycle is kept (R96; D9). -/
def execHlt (s : State) : Host.Outcome State Fault Refusal := .next (s.setRun .halted)

/-- An unassigned opcode, 16 to 31: nothing; pc has been advanced like for every word (R97). -/
def execUnassigned (_opcode : Opcode) (s : State) : Host.Outcome State Fault Refusal := .next s

end Sys2Proof.Machine
end

