-- ==== Sys2Proof/Machine/Immediate.lean ====
section
/-! DEFINITION. The immediate byte loads LDL, LDH (spec/43_immediate.md): one byte of rA is replaced, the
other kept. -/

namespace Sys2Proof.Machine

/-- LDL rA, imm8: x[rA] <- (x[rA] & 0xFF00) | imm8 (R88). -/
def execLdl (a : RegIx) (i : Byte) (s : State) : Host.Outcome State Fault Refusal :=
  .next (s.writePort a (aluLdl (s.portA a) i))

/-- LDH rA, imm8: x[rA] <- (imm8 << 8) | (x[rA] & 0x00FF) (R89). -/
def execLdh (a : RegIx) (i : Byte) (s : State) : Host.Outcome State Fault Refusal :=
  .next (s.writePort a (aluLdh (s.portA a) i))

end Sys2Proof.Machine
end

