-- ==== Sys2Proof/Machine/MemoryAccess.lean ====
section
/-! DEFINITION. LD and ST (spec/45_memory_access.md): one whole word between rA and the data store at an
absolute 8-bit word address. -/

namespace Sys2Proof.Machine

/-- LD rA, addr8: x[rA] <- MemRead(addr8, 1) (R94). -/
def execLd (a : RegIx) (addr : Byte) (s : State) : Host.Outcome State Fault Refusal :=
  .next (s.writePort a (s.memRead (dataAddress addr)))

/-- ST rA, addr8: MemWrite(addr8, 1, x[rA]) (R95). -/
def execSt (a : RegIx) (addr : Byte) (s : State) : Host.Outcome State Fault Refusal :=
  .next (s.memWrite (dataAddress addr) (s.portA a))

end Sys2Proof.Machine
end

