-- ==== Sys2Proof/Machine/RegisterAlu.lean ====
section
/-! DEFINITION. The register-register operations MOV, ADD, SUB, AND, OR (spec/41_register_alu.md). Each
meaning is given the state after the advance of the cycle (R69; log entry 5), reads its operands before it
writes (R71), and writes register rA only. -/

namespace Sys2Proof.Machine

/-- MOV rA, rB: x[rA] <- x[rB] (R79). -/
def execMov (a b : RegIx) (s : State) : Host.Outcome State Fault Refusal :=
  .next (s.writePort a (aluMov (s.portB b)))

/-- ADD rA, rB: x[rA] <- (x[rA] + x[rB]) mod 2^16 (R80). -/
def execAdd (a b : RegIx) (s : State) : Host.Outcome State Fault Refusal :=
  .next (s.writePort a (aluAdd (s.portA a) (s.portB b)))

/-- SUB rA, rB: x[rA] <- (x[rA] - x[rB]) mod 2^16 (R81). -/
def execSub (a b : RegIx) (s : State) : Host.Outcome State Fault Refusal :=
  .next (s.writePort a (aluSub (s.portA a) (s.portB b)))

/-- AND rA, rB: x[rA] <- x[rA] & x[rB] (R82). -/
def execAnd (a b : RegIx) (s : State) : Host.Outcome State Fault Refusal :=
  .next (s.writePort a (aluAnd (s.portA a) (s.portB b)))

/-- OR rA, rB: x[rA] <- x[rA] | x[rB] (R83). -/
def execOr (a b : RegIx) (s : State) : Host.Outcome State Fault Refusal :=
  .next (s.writePort a (aluOr (s.portA a) (s.portB b)))

end Sys2Proof.Machine
end

