-- ==== Sys2Proof/Machine/Shift.lean ====
section
/-! DEFINITION. The one-place shifts SL, SR, SRA (spec/42_shift.md). No flag is written; the bit shifted
out is lost. -/

namespace Sys2Proof.Machine

/-- SL rA: x[rA] <- (x[rA] << 1) & 0xFFFF (R85). -/
def execSl (a : RegIx) (s : State) : Host.Outcome State Fault Refusal :=
  .next (s.writePort a (aluSl (s.portA a)))

/-- SR rA: x[rA] <- x[rA] >> 1 (R86). -/
def execSr (a : RegIx) (s : State) : Host.Outcome State Fault Refusal :=
  .next (s.writePort a (aluSr (s.portA a)))

/-- SRA rA: x[rA] <- (x[rA] & 0x8000) | (x[rA] >> 1) (R87). -/
def execSra (a : RegIx) (s : State) : Host.Outcome State Fault Refusal :=
  .next (s.writePort a (aluSra (s.portA a)))

end Sys2Proof.Machine
end

