-- ==== Sys2Proof/Machine/Dispatch.lean ====
section
/-! DEFINITION. The dispatch of spec/40_execution_cycle.md R70: one arm per instruction. -/

namespace Sys2Proof.Machine

/-- Executes an instruction on the state after the advance of its cycle (R69, R70; log entry 5). -/
def exec (i : Instr) (s : State) : Host.Outcome State Fault Refusal :=
  match i with
  | .mov a b => Sys2Proof.Machine.execMov a b s
  | .add a b => Sys2Proof.Machine.execAdd a b s
  | .sub a b => Sys2Proof.Machine.execSub a b s
  | .and a b => Sys2Proof.Machine.execAnd a b s
  | .or a b => Sys2Proof.Machine.execOr a b s
  | .sl a => Sys2Proof.Machine.execSl a s
  | .sr a => Sys2Proof.Machine.execSr a s
  | .sra a => Sys2Proof.Machine.execSra a s
  | .ldl a v => Sys2Proof.Machine.execLdl a v s
  | .ldh a v => Sys2Proof.Machine.execLdh a v s
  | .cmp a b => Sys2Proof.Machine.execCmp a b s
  | .je t => Sys2Proof.Machine.execJe t s
  | .jmp t => Sys2Proof.Machine.execJmp t s
  | .ld a addr => Sys2Proof.Machine.execLd a addr s
  | .st a addr => Sys2Proof.Machine.execSt a addr s
  | .hlt => Sys2Proof.Machine.execHlt s
  | .unassigned c => Sys2Proof.Machine.execUnassigned c s

end Sys2Proof.Machine
end

