-- ==== Sys2Proof/Machine/Step.lean ====
section
/-! DEFINITION. One step of the machine: fetch, advance, execute (spec/40_execution_cycle.md R66 to R73).
The trace record a step emits is `State.traceRecord` of Sys2Proof/Machine/Trace.lean, a function of the
state before the step, since it changes no state (R68; log entry 4). -/

namespace Sys2Proof.Machine

/-- One step. In RUNNING it fetches the word at pc, advances pc and executes, or, with pc above 255,
raises FetchOutOfRange (R72). In HALTED and FAULTED no step exists (R73; log entry 3). -/
def step (s : State) : Host.Outcome State Fault Refusal :=
  match s.run with
  | .halted => .fault .halted
  | .faulted => .fault (.fetchOutOfRange s.pc)
  | .running =>
    match s.iFetch with
    | none => .next s.raiseFetchOutOfRange
    | some w => exec (decode w) s.advance

/-- The state whose next step fetches and runs exactly the instruction whose bits are `w` (log entry 6). -/
def State.withFetchWord (s : State) (nbits w : Nat) : State := s.placeWord (tableWord nbits w)

end Sys2Proof.Machine
end

