-- ==== Sys2Proof/Machine/Trace.lean ====
section
/-! DEFINITION. The trace, the per-cycle observation of spec/60_exceptions.md R112. It is no state of the
machine (R28, R68): the record of a step is a function of the state before it (log entry 4). -/

namespace Sys2Proof.Machine

/-- Trace(pc, w, r0, r1, r2, r3) (R112). -/
structure TraceRecord where
  /-- The address the word was fetched from, before the advance. -/
  pc : Word
  /-- The raw instruction word. -/
  w : Word
  /-- x[0] before the instruction executes. -/
  r0 : Word
  /-- x[1] before the instruction executes. -/
  r1 : Word
  /-- x[2] before the instruction executes. -/
  r2 : Word
  /-- x[3] before the instruction executes. -/
  r3 : Word
deriving DecidableEq, Repr

/-- The record the next step emits: one for a step that fetches a word, none for a faulting fetch, none
where no step exists (R68, R99, R112). -/
def State.traceRecord (s : State) : Option TraceRecord :=
  match s.run with
  | .halted => none
  | .faulted => none
  | .running =>
    match s.iFetch with
    | none => none
    | some w => some { pc := s.pc, w := w, r0 := s.reg 0, r1 := s.reg 1, r2 := s.reg 2, r3 := s.reg 3 }

/-- The state after at most `n` steps: it stays where no step exists (R73). -/
def State.runFor : Nat → State → State
  | 0, s => s
  | n + 1, s =>
    match step s with
    | .next t => State.runFor n t
    | .fault _ => s
    | .refused _ => s

/-- The records of at most `n` steps, in execution order (R112). -/
def State.traceFor : Nat → State → List TraceRecord
  | 0, _ => []
  | n + 1, s =>
    match step s with
    | .next t => s.traceRecord.toList ++ State.traceFor n t
    | .fault _ => []
    | .refused _ => []

end Sys2Proof.Machine
end

