-- ==== Sys2Proof/Machine/HostInterface.lean ====
section
/-! DEFINITION. What the host does before and after a run (spec/70_reset_and_hazards.md R116 to R121). A
program is loaded from outside the machine before its first step; no step loads it (log entry 6). -/

namespace Sys2Proof.Machine

/-- Writes words into a store at rising word addresses from `a` on. -/
def Memory.loadFrom : Memory → Nat → List Word → Memory
  | m, _, [] => m
  | m, a, w :: ws => Memory.loadFrom (m.writeWord (BitVec.ofNat 8 a) w) (a + 1) ws

/-- The store that holds the given words from address 0 on and 0 elsewhere; at most 256 words fit (R116). -/
def Memory.ofWords (ws : List Word) : Option Memory :=
  if ws.length ≤ Config.imemWords then some (Memory.loadFrom [] 0 ws) else none

/-- The launch state of a run: the program in the instruction store, unused words 0, the launch parameters
initRegs and initDMem, and pc, flag and run as reset leaves them (R116; D10). -/
def State.launch (program : List Word) (initRegs : Vector Word Config.numRegs) (initDMem : List Word) :
    Option State :=
  match Memory.ofWords program, Memory.ofWords initDMem with
  | some im, some dm => some { State.reset with regs := initRegs, imem := im, dmem := dm }
  | none, _ => none
  | some _, none => none

/-- The launch state of the source's own machine: initRegs and initDMem all zero (R116). -/
def State.launchSource (program : List Word) : Option State :=
  State.launch program State.reset.regs []

/-- The final report: the data word at RESULT_ADDR, made when the run state is HALTED and not after a fault
(R121; D14). -/
def State.finalReport (s : State) : Option Word :=
  match s.run with
  | .halted => some (s.memRead Config.resultAddr)
  | .running => none
  | .faulted => none

end Sys2Proof.Machine
end

