-- ==== Sys2Proof/Machine/Assembler.lean ====
section
/-! DEFINITION. The assembler's text (spec/30_encoding.md R64; D12) over the checked encoder functions of
Sys2Proof/Decode.lean. It is the host's, before the run: no step of the machine calls it, and syntax has
no effect on execution. What R64 leaves open is fixed in log entry 8. -/

namespace Sys2Proof.Machine

/-! ## Characters and fields -/

/-- The white space between the parts of a line. R64 names no characters (DESIGN CHOICE, log entry 8). -/
def isBlank (c : Char) : Bool := c == ' ' || c == '\t' || c == '\r'

/-- A text without the white space at its two ends. -/
def trimText (cs : List Char) : List Char :=
  ((cs.dropWhile isBlank).reverse.dropWhile isBlank).reverse

/-- The pieces of a text between the separators. -/
def piecesOf (sep : Char) : List Char → List (List Char)
  | [] => [[]]
  | c :: cs =>
    match piecesOf sep cs with
    | [] => [[c]]
    | f :: fs => if c = sep then [] :: f :: fs else (c :: f) :: fs

/-- The value of a decimal digit. -/
def decimalDigit (c : Char) : Option Nat :=
  if '0' ≤ c ∧ c ≤ '9' then some (c.toNat - '0'.toNat) else none

/-- The value of a hexadecimal digit, of either case. -/
def hexDigit (c : Char) : Option Nat :=
  if 'a' ≤ c ∧ c ≤ 'f' then some (c.toNat - 'a'.toNat + 10)
  else if 'A' ≤ c ∧ c ≤ 'F' then some (c.toNat - 'A'.toNat + 10)
  else decimalDigit c

/-- The number a run of digits writes, on top of the digits read so far. -/
def digitsValue (digit : Char → Option Nat) (base : Nat) : Nat → List Char → Option Nat
  | acc, [] => some acc
  | acc, c :: cs =>
    match digit c with
    | some d => digitsValue digit base (acc * base + d) cs
    | none => none

/-- A number in decimal or in hexadecimal after `0x` (R64). R64 does not say how its digits are written:
leading zeros are read, hexadecimal digits have either case, and the prefix is the lower-case `0x` alone, so
`0X` and a sign are refused (DESIGN CHOICE, log entry 8). -/
def numberOf : List Char → Option Nat
  | [] => none
  | '0' :: 'x' :: [] => none
  | '0' :: 'x' :: c :: cs => digitsValue hexDigit 16 0 (c :: cs)
  | c :: cs => digitsValue decimalDigit 10 0 (c :: cs)

/-- The index of a register written r0, r1, ... (R64); an index above 7 is refused by the encoder. R64
writes the registers only as `r0` to `r7`: that any run of digits after a lower-case `r` is read as its
decimal value, leading zeros included (`r07` is `r7`, `r00` is `r0`), and that `R` is refused, is the model's
choice (DESIGN CHOICE, log entry 8). -/
def registerOf : List Char → Option Nat
  | 'r' :: c :: cs => digitsValue decimalDigit 10 0 (c :: cs)
  | _ => none

/-- The name of a label: a letter or underscore, then letters, digits and underscores. It may be spelled as
a register or a mnemonic is. R64 gives no characters for it (DESIGN CHOICE, log entry 8). -/
def isLabelName : List Char → Bool
  | [] => false
  | c :: cs => (c.isAlpha || c == '_') && cs.all fun d => d.isAlpha || d.isDigit || d == '_'

/-! ## Lines -/

/-- The mnemonic of an operation (R57). -/
def mnemonicOf : Op → List Char
  | .mov => "MOV".toList
  | .add => "ADD".toList
  | .sub => "SUB".toList
  | .and => "AND".toList
  | .or => "OR".toList
  | .sl => "SL".toList
  | .sr => "SR".toList
  | .sra => "SRA".toList
  | .ldl => "LDL".toList
  | .ldh => "LDH".toList
  | .cmp => "CMP".toList
  | .je => "JE".toList
  | .jmp => "JMP".toList
  | .ld => "LD".toList
  | .st => "ST".toList
  | .hlt => "HLT".toList

/-- The operation a mnemonic of either case names (R64). -/
def opOfMnemonic (cs : List Char) : Option Op :=
  allOps.find? fun op => mnemonicOf op == cs.map Char.toUpper

/-- A line of text in its parts: a label, and an instruction's mnemonic and operands. -/
structure AsmLine where
  /-- The label the line begins with, if any. -/
  label : Option (List Char)
  /-- The mnemonic and the operands between commas; none on a line without an instruction. -/
  instr : Option (List Char × List (List Char))
deriving DecidableEq, Repr

/-- The mnemonic and operands of what follows a line's label: white space ends the mnemonic and may stand
around an operand (DESIGN CHOICE, log entry 8). -/
def instrParts (cs : List Char) : Option (List Char × List (List Char)) :=
  match cs with
  | [] => none
  | _ :: _ =>
    match trimText (cs.dropWhile fun c => !isBlank c) with
    | [] => some (cs.takeWhile (fun c => !isBlank c), [])
    | o :: os => some (cs.takeWhile (fun c => !isBlank c), (piecesOf ',' (o :: os)).map trimText)

/-- The parts of a line: `;` starts a comment, and a label stands before `:` (R64). The text before the
first `:` is the line's one label, with white space around it allowed; a later `:` stays in the instruction's
text, which is then refused (DESIGN CHOICE, log entry 8). -/
def lineParts (cs : List Char) : AsmLine :=
  match piecesOf ':' (cs.takeWhile (· ≠ ';')) with
  | l :: rest :: more =>
    { label := some (trimText l), instr := instrParts (trimText (rest ++ more.flatMap (':' :: ·))) }
  | l :: [] => { label := none, instr := instrParts (trimText l) }
  | [] => { label := none, instr := none }

/-- The address of a label among those defined. R64 makes only the mnemonic case-insensitive and says
nothing of labels: that a label's name is compared exactly, so that names differing in case are two labels,
is the model's choice (DESIGN CHOICE, log entry 8). -/
def labelAddress (labels : List (List Char × Nat)) (name : List Char) : Option Nat :=
  (labels.find? fun l => l.1 == name).map Prod.snd

/-- The word of an instruction's text (R61, R62, R64). A target may be a number or a label, whose address
the encoder refuses above 255 as it refuses such a number (R62). That a mnemonic is refused before an
operand, and operands that cannot be read before values out of range, is the model's choice (DESIGN CHOICE,
log entry 8). -/
def assembleInstr (labels : List (List Char × Nat)) (mnemonic : List Char) (operands : List (List Char)) :
    Except AsmError Word :=
  match opOfMnemonic mnemonic with
  | none => .error .unknownMnemonic
  | some op =>
    match formatOf op, operands with
    | .rr, [a, b] =>
      match registerOf a, registerOf b with
      | some ra, some rb => asmRR op ra rb
      | _, _ => .error .wrongOperands
    | .r, [a] =>
      match registerOf a with
      | some ra => asmR op ra
      | none => .error .wrongOperands
    | .ri, [a, v] =>
      match registerOf a, numberOf v with
      | some ra, some n => asmRI op ra n
      | _, _ => .error .wrongOperands
    | .rm, [a, addr] =>
      match registerOf a, numberOf addr with
      | some ra, some n => asmRM op ra n
      | _, _ => .error .wrongOperands
    | .j, [t] =>
      match numberOf t with
      | some n => asmJ op n
      | none =>
        if isLabelName t then
          match labelAddress labels t with
          | some n => asmJ op n
          | none => .error .undefinedLabel
        else .error .wrongOperands
    | .n, [] => asmN op
    | _, _ => .error .wrongOperands

/-! ## Programs -/

/-- The labels of the lines from instruction address `at_` on, after those already read. A line may hold a
label and no instruction, and a label defined twice is refused (DESIGN CHOICE, log entry 8). -/
def labelsOf : List (List Char × Nat) → Nat → List AsmLine → Except AsmError (List (List Char × Nat))
  | labels, _, [] => .ok labels
  | labels, at_, l :: ls =>
    match l.label with
    | none => labelsOf labels (at_ + if l.instr.isSome then 1 else 0) ls
    | some name =>
      if !isLabelName name then .error .badLabel
      else if (labelAddress labels name).isSome then .error .duplicateLabel
      else labelsOf (labels ++ [(name, at_)]) (at_ + if l.instr.isSome then 1 else 0) ls

/-- The words of the lines that hold an instruction, in order. The refusal of the earliest line is the one
answered (DESIGN CHOICE, log entry 8). -/
def wordsOf (labels : List (List Char × Nat)) : List AsmLine → Except AsmError (List Word)
  | [] => .ok []
  | l :: ls =>
    match l.instr with
    | none => wordsOf labels ls
    | some (mnemonic, operands) =>
      match assembleInstr labels mnemonic operands, wordsOf labels ls with
      | .ok w, .ok ws => .ok (w :: ws)
      | .error e, _ => .error e
      | .ok _, .error e => .error e

/-- The words of a program's lines (R64), from instruction address 0 on. The labels are read before the
instructions, and the number of words is not bounded here but by `launch` (DESIGN CHOICE, log entries 6
and 8). -/
def assemble (text : List (List Char)) : Except AsmError (List Word) :=
  match labelsOf [] 0 (text.map lineParts) with
  | .ok labels => wordsOf labels (text.map lineParts)
  | .error e => .error e

end Sys2Proof.Machine
end

