-- ==== Sys2Proof/Machine/Interfaces.lean ====
section
/-! DEFINITION. The interfaces of the CORE (spec/20_memory.md R41, R42, R43; D8): the requests a step makes
of the instruction store and of the data store, and the registers it reads and writes (spec/10_state.md
R16). They add no behaviour; the meanings perform the accesses. -/

namespace Sys2Proof.Machine

/-- dreq, with daddr and, for WRITE, dwdata (R42). -/
inductive DataRequest where
  /-- NONE: no access. -/
  | idle
  /-- READ of one word at daddr. -/
  | read (daddr : Byte)
  /-- WRITE of one word, dwdata, at daddr. -/
  | write (daddr : Byte) (dwdata : Word)
deriving DecidableEq, Repr

/-- The request an instruction makes of the data store: LD makes READ, ST makes WRITE, every other
instruction and every unassigned opcode makes NONE (R42). -/
def dataRequest (i : Instr) (s : State) : DataRequest :=
  match i with
  | .ld _ addr => .read (dataAddress addr)
  | .st a addr => .write (dataAddress addr) (s.portA a)
  | .mov _ _ | .add _ _ | .sub _ _ | .and _ _ | .or _ _ | .sl _ | .sr _ | .sra _ | .ldl _ _ | .ldh _ _
  | .cmp _ _ | .je _ | .jmp _ | .hlt | .unassigned _ => .idle

/-- drdata: what the data store answers to a READ (R42). -/
def DataRequest.response : DataRequest → Memory → Option Word
  | .idle, _ => none
  | .read a, m => some (m.readWord a)
  | .write _ _, _ => none

/-- The data store after the request (R36, R42). -/
def DataRequest.perform : DataRequest → Memory → Memory
  | .idle, m => m
  | .read _, m => m
  | .write a v, m => m.writeWord a v

/-- iaddr: the one fetch request of a step, the 16-bit pc; none in HALTED or FAULTED (R41). -/
def State.fetchRequest (s : State) : Option Word :=
  match s.run with
  | .running => some s.pc
  | .halted => none
  | .faulted => none

/-- iword: what the instruction store answers to the fetch request; no word above address 255 (R41). -/
def State.fetchResponse (s : State) : Option Word :=
  match s.fetchRequest with
  | some iaddr =>
    if iaddr.toNat < Config.imemWords then some (s.imem.readWord (iaddr.setWidth 8)) else none
  | none => none

/-- The registers an instruction reads (R16): at most two, rA on port A and rB on port B (R43). -/
def regsRead : Instr → List RegIx
  | .mov _ b => [b]
  | .add a b | .sub a b | .and a b | .or a b | .cmp a b => [a, b]
  | .sl a | .sr a | .sra a | .ldl a _ | .ldh a _ | .st a _ => [a]
  | .je _ | .jmp _ | .ld _ _ | .hlt | .unassigned _ => []

/-- The register an instruction writes, if any (R16): always rA, on the one write port (R43). -/
def regWritten : Instr → Option RegIx
  | .mov a _ | .add a _ | .sub a _ | .and a _ | .or a _ | .sl a | .sr a | .sra a | .ldl a _ | .ldh a _
  | .ld a _ => some a
  | .cmp _ _ | .je _ | .jmp _ | .st _ _ | .hlt | .unassigned _ => none

end Sys2Proof.Machine
end

