-- ==== Sys2Proof/Safety.lean ====
section
/-! DEFINITION. The terms the statements use: what an instruction may leave changed, the invariant of the
machine, a successful end of a run, and the step as the spec's pseudocode writes it. -/

namespace Sys2Proof.Machine

/-! ## Frames -/

/-- Every register reads as before. -/
def SameRegisters (s t : State) : Prop := ∀ r, t.reg r = s.reg r

/-- Every byte cell of the instruction store reads as before. -/
def SameInstructionStore (s t : State) : Prop := ∀ n, t.imem.readByte n = s.imem.readByte n

/-- Every byte cell of the data store reads as before. -/
def SameDataStore (s t : State) : Prop := ∀ n, t.dmem.readByte n = s.dmem.readByte n

/-- Nothing changes but register `a`: every other register, pc, flag, the run state and every byte of both
stores are as before. -/
def OnlyRegister (a : RegIx) (s t : State) : Prop :=
  (∀ r, r ≠ a → t.reg r = s.reg r) ∧ t.pc = s.pc ∧ t.flag = s.flag ∧ t.run = s.run ∧
    SameInstructionStore s t ∧ SameDataStore s t

/-! ## The invariant -/

/-- What holds of the machine in every state a run reaches: both stores have their canonical form, pc is 0
to 256 (spec/10_state.md R19), HALTED was entered by a HLT whose address is the one before pc
(spec/40_execution_cycle.md R75), and FAULTED was entered at 256 (spec/60_exceptions.md R99). -/
structure State.Inv (s : State) : Prop where
  imem_wf : s.imem.wf
  dmem_wf : s.dmem.wf
  pc_le : s.pc.toNat ≤ 256
  halted_after_hlt : s.run = .halted →
    ∃ h : Byte, s.pc.toNat = h.toNat + 1 ∧ decode (s.imem.readWord h) = .hlt
  faulted_at_end : s.run = .faulted → s.pc.toNat = 256

/-- A successful end: the run is HALTED within `n` steps (spec/60_exceptions.md R100). A run that faults is
none. -/
def State.HaltsWithin (n : Nat) (s : State) : Prop := (s.runFor n).run = .halted

/-! ## The pseudocode of the step

The step as spec/40_execution_cycle.md R72 writes it, over natural numbers and plain arrays, with no use of
the decoder, the meanings or the byte cells. -/

/-- The state tuple of spec/10_state.md, each value a natural number. -/
structure Tuple where
  x : Fin 8 → Nat
  pc : Nat
  flag : Nat
  run : RunState
  imem : Fin 256 → Nat
  dmem : Fin 256 → Nat

/-- The tuple a state stands for. -/
def State.tuple (s : State) : Tuple where
  x i := (s.reg (BitVec.ofFin i)).toNat
  pc := s.pc.toNat
  flag := if s.flag then 1 else 0
  run := s.run
  imem a := (s.imem.readWord (BitVec.ofFin a)).toNat
  dmem a := (s.dmem.readWord (BitVec.ofFin a)).toNat

/-- x[i] <- v. -/
def Tuple.setX (p : Tuple) (i : Fin 8) (v : Nat) : Tuple := { p with x := Function.update p.x i v }

/-- The `case opc(w)` of R72, on the state whose pc has been advanced. -/
def Tuple.execute (p : Tuple) (w : Nat) : Tuple :=
  let A : Fin 8 := Fin.ofNat 8 (w / 256)
  let B : Fin 8 := Fin.ofNat 8 (w / 32)
  let I : Fin 256 := Fin.ofNat 256 w
  let o : Nat := w / 2048
  if o = (opcodeOf .mov).toNat then p.setX A (p.x B)
  else if o = (opcodeOf .add).toNat then p.setX A ((p.x A + p.x B) % 65536)
  else if o = (opcodeOf .sub).toNat then p.setX A ((p.x A + 65536 - p.x B) % 65536)
  else if o = (opcodeOf .and).toNat then p.setX A (p.x A &&& p.x B)
  else if o = (opcodeOf .or).toNat then p.setX A (p.x A ||| p.x B)
  else if o = (opcodeOf .sl).toNat then p.setX A ((p.x A <<< 1) &&& 0xFFFF)
  else if o = (opcodeOf .sr).toNat then p.setX A (p.x A >>> 1)
  else if o = (opcodeOf .sra).toNat then p.setX A ((p.x A &&& 0x8000) ||| (p.x A >>> 1))
  else if o = (opcodeOf .ldl).toNat then p.setX A ((p.x A &&& 0xFF00) ||| I.val)
  else if o = (opcodeOf .ldh).toNat then p.setX A ((I.val <<< 8) ||| (p.x A &&& 0x00FF))
  else if o = (opcodeOf .cmp).toNat then { p with flag := if p.x A = p.x B then 1 else 0 }
  else if o = (opcodeOf .je).toNat then (if p.flag = 1 then { p with pc := I.val } else p)
  else if o = (opcodeOf .jmp).toNat then { p with pc := I.val }
  else if o = (opcodeOf .ld).toNat then p.setX A (p.dmem I)
  else if o = (opcodeOf .st).toNat then { p with dmem := Function.update p.dmem I (p.x A) }
  else if o = (opcodeOf .hlt).toNat then { p with run := .halted }
  else p

/-- The step of R72, enabled only when run = RUNNING: the state after it. -/
def Tuple.step (p : Tuple) : Tuple :=
  if 255 < p.pc then { p with run := .faulted }
  else Tuple.execute { p with pc := p.pc + 1 } (p.imem (Fin.ofNat 256 p.pc))

/-- The `emit Trace(pc, w, x[0], x[1], x[2], x[3])` of R72. -/
def Tuple.emitted (p : Tuple) : Option (List Nat) :=
  if 255 < p.pc then none
  else some [p.pc, p.imem (Fin.ofNat 256 p.pc), p.x 0, p.x 1, p.x 2, p.x 3]

/-- The values of a trace record, in R112's order. -/
def TraceRecord.values (r : TraceRecord) : List Nat :=
  [r.pc.toNat, r.w.toNat, r.r0.toNat, r.r1.toNat, r.r2.toNat, r.r3.toNat]

end Sys2Proof.Machine
end

