-- ==== Sys2Proof/Certificates/Slice0/Obligations.lean ====
section
/-! DEFINITION. The statements for the provers. Each docstring names the rule of spec/ it rests on; the
opcode values are the spec's decision D1 (log entry 1) wherever a statement names one. -/

open Sys2Proof Sys2Proof.Machine

/-! ## Encoding -/

/-- Words written out from the patterns of R55 and R57 decode to the instructions they stand for. The
opcode values are the spec's decision D1 (log entry 1). -/
def Obligations.WordsOfTheSpecDecode : Prop :=
  decode 0b0000001110100000 = .mov 3 5 ∧ decode 0b0000101000100000 = .add 2 1 ∧
  decode 0b0010100100000000 = .sl 1 ∧ decode 0b0100001100001010 = .ldl 3 10 ∧
  decode 0b0101001001100000 = .cmp 2 3 ∧ decode 0b0101100000001110 = .je 14 ∧
  decode 0b0110100101000000 = .ld 1 64 ∧ decode 0b0111000001000000 = .st 0 64 ∧
  decode 0b0111100000000000 = .hlt ∧ decode 0b1111111111111111 = .unassigned 31

/-- R63: for each of the 16 operations and every operand, decoding the encoder's word gives back the
operation and the operands. -/
def Obligations.DecodeOfEncodeGivesTheInstruction : Prop :=
  ∀ i : Instr, (∀ c, i ≠ .unassigned c) → decode (encode i) = i

/-- The same of the unassigned opcodes 16 to 31, which the source's encoder lacks: the model's word for one
decodes to it (log entry 9). -/
def Obligations.DecodeOfEncodeUnassigned : Prop :=
  ∀ c : Opcode, (Instr.unassigned c).wf = true → decode (encode (.unassigned c)) = .unassigned c

/-- R55, R56 and R61, as the spec derives them: encoding what a word decodes to gives the word with the bits
its format does not use cleared. -/
def Obligations.EncodeOfDecodeClearsUnusedBits : Prop :=
  ∀ w : Word, encode (decode w) = w &&& (decode w).usedBits

/-- R56, as the spec derives it: two words that agree on the bits the format of one uses are the same
instruction, so the other bits have no effect. -/
def Obligations.UnusedBitsHaveNoEffect : Prop :=
  ∀ v w : Word, v &&& (decode w).usedBits = w &&& (decode w).usedBits → decode v = decode w

/-- R54: every word decodes to exactly one of the 16 operations or to the unassigned no-op, never to both,
what it decodes to is well-formed, and executing it is no stop. -/
def Obligations.EveryWordIsExactlyOneInstruction : Prop :=
  ∀ w : Word,
    (((∃ op, opc w = opcodeOf op ∧ decode w = instrOf op w ∧ ∀ op', opc w = opcodeOf op' → op' = op) ∧
        (opc w).toNat < 16) ∨
      ((∀ op, opc w ≠ opcodeOf op) ∧ 16 ≤ (opc w).toNat ∧ decode w = .unassigned (opc w))) ∧
    (decode w).wf = true ∧
    ∀ s, ∃ t, exec (decode w) s = .next t

/-- R61, whose layout the spec derives from the field positions: the words of the six encoder functions as
numbers. -/
def Obligations.EncoderWordsByFormula : Prop :=
  ∀ (op : Op) (a b : RegIx) (v : Byte),
    (encRR op a b).toNat = ((opcodeOf op).toNat <<< 11) ||| (a.toNat <<< 8) ||| (b.toNat <<< 5) ∧
    (encR op a).toNat = ((opcodeOf op).toNat <<< 11) ||| (a.toNat <<< 8) ∧
    (encRI op a v).toNat = ((opcodeOf op).toNat <<< 11) ||| (a.toNat <<< 8) ||| v.toNat ∧
    (encJ op v).toNat = ((opcodeOf op).toNat <<< 11) ||| v.toNat ∧
    (encRM op a v).toNat = ((opcodeOf op).toNat <<< 11) ||| (a.toNat <<< 8) ||| v.toNat ∧
    (encN op).toNat = (opcodeOf op).toNat <<< 11

/-- R62, the spec's decision D15: the assembler produces a word exactly when every register index is 0 to 7
and every value, target or address 0 to 255, and that word is the encoder's; otherwise it refuses. -/
def Obligations.AssemblerRefusesExactlyOutOfRange : Prop :=
  ∀ (op : Op) (a b v : Nat),
    ((a ≤ 7 ∧ b ≤ 7 → asmRR op a b = .ok (encRR op (BitVec.ofNat 3 a) (BitVec.ofNat 3 b))) ∧
      (¬(a ≤ 7 ∧ b ≤ 7) → ∃ e, asmRR op a b = .error e)) ∧
    ((a ≤ 7 → asmR op a = .ok (encR op (BitVec.ofNat 3 a))) ∧ (¬a ≤ 7 → ∃ e, asmR op a = .error e)) ∧
    ((a ≤ 7 ∧ v ≤ 255 → asmRI op a v = .ok (encRI op (BitVec.ofNat 3 a) (BitVec.ofNat 8 v))) ∧
      (¬(a ≤ 7 ∧ v ≤ 255) → ∃ e, asmRI op a v = .error e)) ∧
    ((v ≤ 255 → asmJ op v = .ok (encJ op (BitVec.ofNat 8 v))) ∧ (¬v ≤ 255 → ∃ e, asmJ op v = .error e)) ∧
    ((a ≤ 7 ∧ v ≤ 255 → asmRM op a v = .ok (encRM op (BitVec.ofNat 3 a) (BitVec.ofNat 8 v))) ∧
      (¬(a ≤ 7 ∧ v ≤ 255) → ∃ e, asmRM op a v = .error e))

/-! ## The step -/

/-- R67, R69 and R70: where the two bytes stored for the word at pc decode to an instruction, the step
executes it on the state whose pc has been advanced by one. That the stores hold bytes is log entry 2. -/
def Obligations.StepRunsTheDecodedInstruction : Prop :=
  ∀ (s : State) (i : Instr), s.run = .running → s.pc.toNat ≤ 255 →
    decodeBytes [s.imem.readByte (2 * s.pc.toNat), s.imem.readByte (2 * s.pc.toNat + 1)] = .ok (i, []) →
    i.wf = true ∧ step s = exec i { s with pc := s.pc + 1 }

/-- R72: a step exists exactly in RUNNING, and there the state after it and the trace record it emits are
those of the pseudocode, which computes on numbers and plain arrays. That the step which raises the fetch
fault is a next state, in FAULTED, is the model's choice of log entry 3 on the spec's decision D4; that the
trace record (decision D11) is a function of the state before the step is log entry 4. The data store has its canonical form,
which StepKeepsTheInvariant and InvariantHoldsAtReset say of every state a run reaches. -/
def Obligations.StepFollowsThePseudocode : Prop :=
  (∀ s : State, s.run = .running → s.dmem.wf →
    ∃ t, step s = .next t ∧ t.tuple = s.tuple.step ∧
      s.traceRecord.map TraceRecord.values = s.tuple.emitted) ∧
  (∀ s t : State, s.run ≠ .running → step s ≠ .next t)

/-- The step after `withFetchWord` runs the placed word, at pc where pc is inside the store (the model's
harness, log entry 6; the step it meets is that of R67 to R70). -/
def Obligations.PlacedWordIsTheOneExecuted : Prop :=
  ∀ (s : State) (w : Word), s.imem.wf →
    step (s.withFetchWord 16 w.toNat) = exec (decode w) (s.placeWord w).advance ∧
    decodeTableWord 16 w.toNat = some (decode w) ∧
    (s.pc.toNat ≤ 255 → (s.withFetchWord 16 w.toNat).pc = s.pc) ∧
    (s.withFetchWord 16 w.toNat).dmem = s.dmem ∧ SameRegisters s (s.withFetchWord 16 w.toNat) ∧
    (s.withFetchWord 16 w.toNat).flag = s.flag

/-! ## Reset and the invariant -/

/-- R29: after construction every register, pc, flag and every word of both stores is zero, and the run
state is RUNNING. -/
def Obligations.ResetIsAllZeroAndRunning : Prop :=
  (∀ r, State.reset.reg r = 0) ∧ State.reset.pc = 0 ∧ State.reset.flag = false ∧
  State.reset.run = .running ∧ (∀ a, State.reset.imem.readWord a = 0) ∧ (∀ a, State.reset.memRead a = 0) ∧
  (∀ n, State.reset.imem.readByte n = 0) ∧ (∀ n, State.reset.dmem.readByte n = 0)

/-- The invariant holds after reset. -/
def Obligations.InvariantHoldsAtReset : Prop := State.reset.Inv

/-- Every step keeps the invariant, from every state that meets it: the stores keep their canonical form, pc
stays 0 to 256 (R19), HALTED is entered only by a HLT at pc - 1 (R75), FAULTED only at pc = 256 (R99). -/
def Obligations.StepKeepsTheInvariant : Prop :=
  ∀ s t : State, s.Inv → step s = .next t → t.Inv

/-! ## Register-register operations -/

/-- MOV, the pseudocode of R79: rA takes the old value of rB, nothing else changes; rA = rB changes
nothing. -/
def Obligations.MovCopiesOneRegister : Prop :=
  ∀ (a b : RegIx) (s : State), ∃ t, exec (.mov a b) s = .next t ∧ t.reg a = s.reg b ∧ OnlyRegister a s t ∧
    (a = b → SameRegisters s t)

/-- ADD and SUB, the pseudocode of R80 and R81 and the law of R84: the exact sum or difference modulo 2^16
of the old values, no flag, nothing else changed. -/
def Obligations.AddAndSubAreModulo65536 : Prop :=
  ∀ (a b : RegIx) (s : State),
    (∃ t, exec (.add a b) s = .next t ∧
      ((t.reg a).toNat : Int) = (((s.reg a).toNat : Int) + (s.reg b).toNat) % 65536 ∧ OnlyRegister a s t) ∧
    (∃ t, exec (.sub a b) s = .next t ∧
      ((t.reg a).toNat : Int) = (((s.reg a).toNat : Int) - (s.reg b).toNat) % 65536 ∧ OnlyRegister a s t)

/-- AND and OR, the pseudocode of R82 and R83, bit by bit; nothing else changes. -/
def Obligations.AndAndOrAreBitwise : Prop :=
  ∀ (a b : RegIx) (s : State),
    (∃ t, exec (.and a b) s = .next t ∧
      (∀ n, (t.reg a).getLsbD n = ((s.reg a).getLsbD n && (s.reg b).getLsbD n)) ∧ OnlyRegister a s t) ∧
    (∃ t, exec (.or a b) s = .next t ∧
      (∀ n, (t.reg a).getLsbD n = ((s.reg a).getLsbD n || (s.reg b).getLsbD n)) ∧ OnlyRegister a s t)

/-- R71, as the spec derives it: every operand is read before the write, so with rA = rB an ADD doubles, a
SUB gives 0, an AND and an OR change nothing, and a CMP sets the flag. -/
def Obligations.SameRegisterIsReadBeforeTheWrite : Prop :=
  ∀ (a : RegIx) (s : State),
    (∃ t, exec (.add a a) s = .next t ∧ (t.reg a).toNat = 2 * (s.reg a).toNat % 65536) ∧
    (∃ t, exec (.sub a a) s = .next t ∧ t.reg a = 0) ∧
    (∃ t, exec (.and a a) s = .next t ∧ SameRegisters s t) ∧
    (∃ t, exec (.or a a) s = .next t ∧ SameRegisters s t) ∧
    (∃ t, exec (.cmp a a) s = .next t ∧ t.flag = true)

/-! ## Shifts -/

/-- SL, SR and SRA, the pseudocode of R85, R86 and R87, as the bit layouts the rules give: {x[14:0], 0},
{0, x[15:1]} and {x[15], x[15:1]}; nothing else changes. -/
def Obligations.ShiftsMoveEveryBitOnePlace : Prop :=
  ∀ (a : RegIx) (s : State),
    (∃ t, exec (.sl a) s = .next t ∧ OnlyRegister a s t ∧ (t.reg a).getLsbD 0 = false ∧
      ∀ n, n < 15 → (t.reg a).getLsbD (n + 1) = (s.reg a).getLsbD n) ∧
    (∃ t, exec (.sr a) s = .next t ∧ OnlyRegister a s t ∧ (t.reg a).getLsbD 15 = false ∧
      ∀ n, n < 15 → (t.reg a).getLsbD n = (s.reg a).getLsbD (n + 1)) ∧
    (∃ t, exec (.sra a) s = .next t ∧ OnlyRegister a s t ∧ (t.reg a).getLsbD 15 = (s.reg a).getLsbD 15 ∧
      ∀ n, n < 15 → (t.reg a).getLsbD n = (s.reg a).getLsbD (n + 1))

/-- R87 and 90_conflicts.md C5, as the spec derives it: for its one place SRA equals the conventional
arithmetic shift, the signed value halved and rounded down. -/
def Obligations.SraHalvesTheSignedValue : Prop :=
  ∀ (a : RegIx) (s : State), ∃ t, exec (.sra a) s = .next t ∧ (t.reg a).toInt = (s.reg a).toInt / 2

/-! ## Immediate byte loads -/

/-- LDL and LDH, the pseudocode of R88 and R89: one byte takes the immediate, the other byte is kept, with
no sign extension; nothing else changes. -/
def Obligations.ByteLoadsReplaceOneByte : Prop :=
  ∀ (a : RegIx) (v : Byte) (s : State),
    (∃ t, exec (.ldl a v) s = .next t ∧ lowByte (t.reg a) = v ∧
      highByte (t.reg a) = highByte (s.reg a) ∧ OnlyRegister a s t) ∧
    (∃ t, exec (.ldh a v) s = .next t ∧ highByte (t.reg a) = v ∧
      lowByte (t.reg a) = lowByte (s.reg a) ∧ OnlyRegister a s t)

/-- R65, as the spec derives it: LDH then LDL loads any 16-bit constant, and SUB rA, rA clears a register,
whatever was in it. -/
def Obligations.IdiomsLoadAnyConstant : Prop :=
  ∀ (a : RegIx) (k : Word) (s : State),
    (∃ t u, exec (.ldh a (highByte k)) s = .next t ∧ exec (.ldl a (lowByte k)) t = .next u ∧
      u.reg a = k ∧ OnlyRegister a s u) ∧
    (∃ t, exec (.sub a a) s = .next t ∧ t.reg a = 0 ∧ OnlyRegister a s t)

/-! ## Compare and control transfer -/

/-- CMP, the pseudocode of R90: the flag is set on exact equality and cleared otherwise; registers, pc, run
state and both stores are unchanged. -/
def Obligations.CompareWritesTheFlagOnly : Prop :=
  ∀ (a b : RegIx) (s : State), ∃ t, exec (.cmp a b) s = .next t ∧
    (t.flag = true ↔ (s.reg a).toNat = (s.reg b).toNat) ∧
    SameRegisters s t ∧ t.pc = s.pc ∧ t.run = s.run ∧ SameInstructionStore s t ∧ SameDataStore s t

/-- JE, the pseudocode of R91: with the flag set pc takes the zero-extended target, otherwise it keeps the
advanced value; the flag and everything else are unchanged. -/
def Obligations.JumpIfEqualBranchesOnTheFlag : Prop :=
  ∀ (k : Byte) (s : State), ∃ t, exec (.je k) s = .next t ∧
    (s.flag = true → t.pc.toNat = k.toNat) ∧ (s.flag = false → t.pc = s.pc) ∧
    t.flag = s.flag ∧ SameRegisters s t ∧ t.run = s.run ∧ SameInstructionStore s t ∧ SameDataStore s t

/-- JMP, the pseudocode of R92: pc takes the zero-extended target; everything else is unchanged. -/
def Obligations.JumpSetsPcToTheTarget : Prop :=
  ∀ (k : Byte) (s : State), ∃ t, exec (.jmp k) s = .next t ∧ t.pc.toNat = k.toNat ∧
    t.flag = s.flag ∧ SameRegisters s t ∧ t.run = s.run ∧ SameInstructionStore s t ∧ SameDataStore s t

/-- The corner cases of R91 and R92 and R77: a JMP to its own address, or a JE to its own address with the
flag set, is a run that stays RUNNING with no state change, however many steps it takes. -/
def Obligations.BranchToItselfRunsForever : Prop :=
  ∀ (s : State) (k : Byte), s.run = .running → s.pc.toNat = k.toNat →
    (decode (s.imem.readWord k) = .jmp k ∨ (decode (s.imem.readWord k) = .je k ∧ s.flag = true)) →
    ∀ n, s.runFor n = s

/-- R122, as the spec derives it, for a CMP followed by a JE: the JE sees the new flag, so two steps branch
exactly on the equality of the registers, whatever the flag was. -/
def Obligations.CompareThenJumpBranchesOnEquality : Prop :=
  ∀ (s : State) (p k : Byte) (a b : RegIx), s.run = .running → s.pc.toNat = p.toNat → p.toNat ≤ 254 →
    decode (s.imem.readWord p) = .cmp a b → decode (s.imem.readWord (p + 1)) = .je k →
    (s.reg a = s.reg b → (s.runFor 2).pc.toNat = k.toNat) ∧
    (s.reg a ≠ s.reg b → (s.runFor 2).pc.toNat = p.toNat + 2) ∧
    SameRegisters s (s.runFor 2) ∧ (s.runFor 2).run = .running

/-! ## Data memory access -/

/-- LD, the pseudocode of R94: rA takes the whole data word at the absolute address; nothing else changes. -/
def Obligations.LoadReadsTheWholeWord : Prop :=
  ∀ (a : RegIx) (addr : Byte) (s : State), ∃ t, exec (.ld a addr) s = .next t ∧
    lowByte (t.reg a) = s.dmem.readByte (lowCell (dataAddress addr)) ∧
    highByte (t.reg a) = s.dmem.readByte (highCell (dataAddress addr)) ∧ OnlyRegister a s t

/-- ST, the pseudocode of R95: the data word at the absolute address takes the whole register; every other
byte of the data store, the registers, pc, flag, run state and instruction store are unchanged. The word is
read back from a data store in its canonical form. -/
def Obligations.StoreWritesOneWholeWord : Prop :=
  ∀ (a : RegIx) (addr : Byte) (s : State), ∃ t, exec (.st a addr) s = .next t ∧
    (s.dmem.wf → t.memRead (dataAddress addr) = s.reg a) ∧
    (∀ n, n ≠ lowCell (dataAddress addr) → n ≠ highCell (dataAddress addr) →
      t.dmem.readByte n = s.dmem.readByte n) ∧
    SameRegisters s t ∧ t.pc = s.pc ∧ t.flag = s.flag ∧ t.run = s.run ∧ SameInstructionStore s t

/-- R36, for either store in its canonical form: a word written is read back, every other word is as before,
reading a word twice gives the same word, LD changes no word and no step, its fetch included, changes the
instruction store. -/
def Obligations.StoresArePlainArrays : Prop :=
  (∀ (m : Memory) (a b : Byte) (v : Word), m.wf →
    (m.writeWord a v).readWord a = v ∧ (b ≠ a → (m.writeWord a v).readWord b = m.readWord b)) ∧
  (∀ (a b : RegIx) (addr : Byte) (s : State), ∃ t u, exec (.ld a addr) s = .next t ∧
    SameDataStore s t ∧ exec (.ld b addr) t = .next u ∧ u.reg b = t.reg a) ∧
  (∀ (a b : RegIx) (addr : Byte) (s : State), s.dmem.wf → ∃ t u, exec (.st a addr) s = .next t ∧
    exec (.ld b addr) t = .next u ∧ u.reg b = s.reg a) ∧
  (∀ s t : State, step s = .next t → SameInstructionStore s t)

/-- R44, as the spec derives it: a data word keeps its value over any run in which no ST to its address is
executed, so a LD returns the last ST to it, or what it held when the run began. -/
def Obligations.DataWordKeepsItsValueUntilStored : Prop :=
  ∀ (n : Nat) (s : State) (addr : Byte),
    (∀ k, k < n → ∀ a w, (s.runFor k).iFetch = some w → decode w ≠ .st a addr) →
    (s.runFor n).memRead addr = s.memRead addr

/-- The model's form of a store (log entry 2) hides nothing: two stores in canonical form that read the same
at every word address are the same data. -/
def Obligations.CanonicalStoresAreTheirWords : Prop :=
  ∀ m m' : Memory, m.wf → m'.wf → (∀ a, m.readWord a = m'.readWord a) → m = m'

/-! ## Halt and unassigned opcodes -/

/-- HLT, the pseudocode of R96: the run state becomes HALTED; registers, flag, both stores and the advanced
pc are unchanged. -/
def Obligations.HaltSetsTheRunState : Prop :=
  ∀ s : State, ∃ t, exec .hlt s = .next t ∧ t.run = .halted ∧ SameRegisters s t ∧ t.pc = s.pc ∧
    t.flag = s.flag ∧ SameInstructionStore s t ∧ SameDataStore s t

/-- An unassigned opcode, R97, in a whole step: a word with bit 15 set changes nothing but pc, which advances
by one, and its trace record is emitted. -/
def Obligations.UnassignedWordOnlyAdvancesPc : Prop :=
  (∀ (c : Opcode) (s : State), 16 ≤ c.toNat → exec (.unassigned c) s = .next s) ∧
  (∀ (s : State) (w : Word), s.run = .running → s.pc.toNat ≤ 255 →
    s.imem.readWord (s.pc.setWidth 8) = w → w.getLsbD 15 = true →
    step s = .next { s with pc := s.pc + 1 } ∧ s.traceRecord.isSome = true)

/-- R75 with R96, the spec's decision D9: the step of a HLT at address h keeps the advance, and after it no
number of steps changes any state. -/
def Obligations.HaltedRunIsFinal : Prop :=
  ∀ (s : State) (h : Byte), s.run = .running → s.pc.toNat = h.toNat → decode (s.imem.readWord h) = .hlt →
    ∃ t, step s = .next t ∧ t.run = .halted ∧ t.pc.toNat = h.toNat + 1 ∧ SameRegisters s t ∧
      t.flag = s.flag ∧ SameDataStore s t ∧ ∀ n, t.runFor n = t ∧ t.HaltsWithin n

/-! ## The run state machine and the fault -/

/-- R73, with the spec's decision D4: RUNNING moves to RUNNING, HALTED or FAULTED by pc and the opcode
fetched, and from HALTED and FAULTED no step exists (as the model says it, log entry 3). -/
def Obligations.RunStateMovesAsTheTableSays : Prop :=
  (∀ s : State, s.run = .running → s.pc.toNat ≤ 255 →
    ∃ t, step s = .next t ∧
      (opc (s.imem.readWord (s.pc.setWidth 8)) ≠ opcodeOf .hlt → t.run = .running) ∧
      (opc (s.imem.readWord (s.pc.setWidth 8)) = opcodeOf .hlt →
        t = { s with pc := s.pc + 1, run := .halted })) ∧
  (∀ s : State, s.run = .running → 255 < s.pc.toNat → step s = .next { s with run := .faulted }) ∧
  (∀ s : State, s.run = .halted → step s = .fault .halted) ∧
  (∀ s : State, s.run = .faulted → step s = .fault (.fetchOutOfRange s.pc))

/-- R99, R100 and R103, the spec's decision D4: a fetch with pc above 255 sets the run state to FAULTED and
changes nothing else, emits no trace record, records cause 1 and the faulting pc, and no number of steps
after it halts. -/
def Obligations.FetchFaultIsPreciseAndFinal : Prop :=
  ∀ s : State, s.run = .running → 255 < s.pc.toNat →
    ∃ t, step s = .next t ∧ t.run = .faulted ∧ t.faultRecord = some (1, s.pc) ∧
      t.pc = s.pc ∧ t.flag = s.flag ∧ SameRegisters s t ∧ SameInstructionStore s t ∧ SameDataStore s t ∧
      s.traceRecord = none ∧ ∀ n, t.runFor n = t ∧ ¬ t.HaltsWithin n ∧ t.finalReport = none

/-- R76: no operation fails during execute, whatever its operands, and the only step from RUNNING that does
not complete is the fetch fault. That the step with pc above 255 answers a next state, in FAULTED, is the
model's choice of log entry 3 on the spec's decision D4, where R76 says that it does not complete. -/
def Obligations.ExecuteNeverFails : Prop :=
  (∀ (i : Instr) (s : State), ∃ t, exec i s = .next t) ∧
  (∀ s : State, s.run = .running → ∃ t, step s = .next t ∧ (t.run = .faulted ↔ 255 < s.pc.toNat))

/-! ## Whole-machine rules -/

/-- R123: nothing writes the instruction store during a run. -/
def Obligations.InstructionStoreIsNeverWritten : Prop :=
  ∀ (n : Nat) (s : State), (s.runFor n).imem = s.imem

/-- R21: CMP alone writes the flag, with the equality of its registers, in both outcomes; JE alone reads it,
so any other instruction does the same whatever the flag; it is 0 after reset. -/
def Obligations.FlagIsWrittenByCmpAndReadByJe : Prop :=
  (∀ (a b : RegIx) (s t : State), exec (.cmp a b) s = .next t →
    (s.reg a = s.reg b → t.flag = true) ∧ (s.reg a ≠ s.reg b → t.flag = false)) ∧
  (∀ (i : Instr) (s t : State), (∀ a b, i ≠ .cmp a b) → exec i s = .next t → t.flag = s.flag) ∧
  (∀ (i : Instr) (s t : State) (f : Bool), (∀ k, i ≠ .je k) → exec i s = .next t →
    ∃ u, exec i { s with flag := f } = .next u ∧ u.regs = t.regs ∧ u.pc = t.pc ∧ u.run = t.run ∧
      u.imem = t.imem ∧ u.dmem = t.dmem ∧ ((∃ a b, i = .cmp a b) → u.flag = t.flag)) ∧
  (∀ (k : Byte) (s : State), exec (.je k) { s with flag := true } = .next { s with flag := true, pc := zext16 k } ∧
    exec (.je k) { s with flag := false } = .next { s with flag := false }) ∧
  State.reset.flag = false

/-- R20, as the spec derives it: no instruction reads pc as an operand, so its effect on everything else is
the same whatever pc is, and pc is written after the advance by a taken JE and by JMP only. -/
def Obligations.PcIsNeverAnOperand : Prop :=
  ∀ (i : Instr) (s t : State) (p : Word), exec i s = .next t →
    (∃ u, exec i { s with pc := p } = .next u ∧ u.regs = t.regs ∧ u.flag = t.flag ∧ u.run = t.run ∧
      u.imem = t.imem ∧ u.dmem = t.dmem) ∧
    ((∀ k, i ≠ .jmp k) → (∀ k, i = .je k → s.flag = false) → t.pc = s.pc)

/-- R16 and R43: an instruction writes at most the one register the table lists, always rA, and from two
states that agree on the registers it reads, and on flag, pc, run state and stores, it writes the same. -/
def Obligations.OnlyTheListedRegistersMatter : Prop :=
  ∀ (i : Instr) (s t : State), exec i s = .next t →
    (∀ r, regWritten i ≠ some r → t.reg r = s.reg r) ∧
    ∀ u : State, (∀ r ∈ regsRead i, u.reg r = s.reg r) → u.flag = s.flag → u.pc = s.pc → u.run = s.run →
      u.imem = s.imem → u.dmem = s.dmem →
      ∃ v, exec i u = .next v ∧ (∀ r, regWritten i = some r → v.reg r = t.reg r) ∧
        v.flag = t.flag ∧ v.pc = t.pc ∧ v.run = t.run ∧ v.imem = t.imem ∧ v.dmem = t.dmem

/-- R42, the spec's decision D8: the data store after an instruction is the data store after the one request
it makes, LD alone reads and takes the response, and ST alone writes. -/
def Obligations.DataRequestAccountsForEveryAccess : Prop :=
  (∀ (i : Instr) (s t : State), exec i s = .next t → t.dmem = (dataRequest i s).perform s.dmem) ∧
  (∀ (a : RegIx) (addr : Byte) (s : State), ∃ t, exec (.ld a addr) s = .next t ∧
    (dataRequest (.ld a addr) s).response s.dmem = some (t.reg a)) ∧
  (∀ (i : Instr) (s : State), (∃ d v, dataRequest i s = .write d v) ↔ ∃ a addr, i = .st a addr) ∧
  (∀ (i : Instr) (s : State), (∃ d, dataRequest i s = .read d) ↔ ∃ a addr, i = .ld a addr)

/-- R26 as a law of what can be learnt: an instruction that is not LD does the same to registers, pc, flag
and run state whatever the data store holds, and the fetch does not reach it. -/
def Obligations.OnlyLoadObservesTheDataStore : Prop :=
  ∀ (i : Instr) (s t : State) (m : Memory), exec i s = .next t → (∀ a addr, i ≠ .ld a addr) →
    (∃ u, exec i { s with dmem := m } = .next u ∧ u.regs = t.regs ∧ u.pc = t.pc ∧ u.flag = t.flag ∧
      u.run = t.run ∧ u.imem = t.imem) ∧
    ({ s with dmem := m } : State).iFetch = s.iFetch

/-- R41, the spec's decision D8: one fetch request a step, at pc, and none in HALTED or FAULTED; the word it
answers is the word the step executes. -/
def Obligations.FetchRequestIsPcWhileRunning : Prop :=
  ∀ s : State, (s.fetchRequest = some s.pc ↔ s.run = .running) ∧
    (s.fetchRequest = none ↔ s.run ≠ .running) ∧
    (∀ w, s.fetchResponse = some w → step s = exec (decode w) s.advance) ∧
    (s.run = .running → (s.fetchResponse = none ↔ 255 < s.pc.toNat))

/-! ## Trace and host -/

/-- R112 with the spec's decision D11: a step that fetches emits one record of pc before the advance, the
word and x[0] to x[3] before the instruction; a faulting step emits none; the records of a run are in
execution order. -/
def Obligations.TraceHasOneRecordPerInstruction : Prop :=
  ∀ (s t : State), step s = .next t →
    (s.traceRecord.isSome = true ↔ t.run ≠ .faulted) ∧
    (∀ r, s.traceRecord = some r → r.pc = s.pc ∧ s.imem.readWord (s.pc.setWidth 8) = r.w ∧
      r.r0 = s.reg 0 ∧ r.r1 = s.reg 1 ∧ r.r2 = s.reg 2 ∧ r.r3 = s.reg 3) ∧
    ∀ n, s.traceFor (n + 1) = s.traceRecord.toList ++ t.traceFor n

/-- R116 with the spec's decision D10: the launch state holds the program and the launch parameters, unused
words 0, with pc, flag and run state as after reset, and it meets the invariant. A program or data of more
than 256 words is refused (log entry 6). -/
def Obligations.LaunchStateHoldsTheProgram : Prop :=
  ∀ (program data : List Word) (regs : Vector Word 8),
    (program.length ≤ 256 → data.length ≤ 256 →
      ∃ s, State.launch program regs data = some s ∧ s.regs = regs ∧ s.pc = 0 ∧ s.flag = false ∧
        s.run = .running ∧ (∀ a : Byte, s.imem.readWord a = program.getD a.toNat 0) ∧
        (∀ a : Byte, s.memRead a = data.getD a.toNat 0) ∧ s.Inv) ∧
    (256 < program.length ∨ 256 < data.length → State.launch program regs data = none)

/-- R121 with the spec's decision D14: the final report is the data word at address 64, made exactly when the
run state is HALTED. -/
def Obligations.FinalReportIsMadeWhenHalted : Prop :=
  ∀ s : State, (s.run = .halted → s.finalReport = some (s.memRead 64)) ∧
    (s.run ≠ .halted → s.finalReport = none)
end

