-- ==== Sys2Proof/Laws/Decode.lean ====
section
/-! SUPPORT. The fields of the encoder's words, and the opcode table read both ways. -/

namespace Sys2Proof

/-! ## The opcode table -/

/-- The table is read back: an operation's value selects it (R57, R58). -/
@[simp] theorem opOf_opcodeOf (op : Op) : opOf (opcodeOf op) = some op := by cases op <;> decide

/-- The operation a value selects has that value. -/
theorem opcodeOf_of_opOf {c : Opcode} {op : Op} (h : opOf c = some op) : opcodeOf op = c := by
  have := List.find?_some h
  simpa using this

/-- The values of the table are distinct. -/
theorem opcodeOf_injective {op op' : Op} (h : opcodeOf op = opcodeOf op') : op = op' := by
  have := congrArg opOf h
  simpa using this

/-- A value selects no operation exactly when it is 16 to 31 (R59). -/
theorem opOf_eq_none : ∀ {c : Opcode}, opOf c = none ↔ Config.numOps ≤ c.toNat := by decide

/-- Every operation's value is at most 15. -/
theorem opcodeOf_lt (op : Op) : (opcodeOf op).toNat < Config.numOps := by cases op <;> decide

/-! ## The bits of a field -/

theorem getLsbD_opc (w : Word) {i : Nat} (h : i < 5) : (opc w).getLsbD i = w.getLsbD (11 + i) := by
  simp only [opc, BitVec.getLsbD_extractLsb', h, decide_true, Bool.true_and]

theorem getLsbD_ra (w : Word) {i : Nat} (h : i < 3) : (ra w).getLsbD i = w.getLsbD (8 + i) := by
  simp only [ra, BitVec.getLsbD_extractLsb', h, decide_true, Bool.true_and]

theorem getLsbD_rb (w : Word) {i : Nat} (h : i < 3) : (rb w).getLsbD i = w.getLsbD (5 + i) := by
  simp only [rb, BitVec.getLsbD_extractLsb', h, decide_true, Bool.true_and]

theorem getLsbD_imm (w : Word) {i : Nat} (h : i < 8) : (imm w).getLsbD i = w.getLsbD i := by
  simp only [imm, BitVec.getLsbD_extractLsb', h, decide_true, Bool.true_and, Nat.zero_add]

/-! ## The values of the fields, by division -/

theorem toNat_opc (w : Word) : (opc w).toNat = w.toNat / 2048 := by
  have := w.isLt
  simp [opc, BitVec.extractLsb'_toNat, Nat.shiftRight_eq_div_pow]; omega

theorem toNat_ra (w : Word) : (ra w).toNat = w.toNat / 256 % 8 := by
  simp [ra, BitVec.extractLsb'_toNat, Nat.shiftRight_eq_div_pow]

theorem toNat_rb (w : Word) : (rb w).toNat = w.toNat / 32 % 8 := by
  simp [rb, BitVec.extractLsb'_toNat, Nat.shiftRight_eq_div_pow]

theorem toNat_imm (w : Word) : (imm w).toNat = w.toNat % 256 := by
  simp [imm, BitVec.extractLsb'_toNat]

/-! ## The values of the encoder's words -/

theorem toNat_encRR (op : Op) (a b : RegIx) :
    (encRR op a b).toNat = (opcodeOf op).toNat * 2048 + a.toNat * 256 + b.toNat * 32 := by
  have ha := a.isLt; have hb := b.isLt
  simp only [encRR, BitVec.toNat_append, BitVec.toNat_ofNat]
  rw [← Nat.shiftLeft_add_eq_or_of_lt (by omega), ← Nat.shiftLeft_add_eq_or_of_lt (by omega),
    ← Nat.shiftLeft_add_eq_or_of_lt (by omega)]
  simp only [Nat.shiftLeft_eq]; omega

theorem toNat_encR (op : Op) (a : RegIx) :
    (encR op a).toNat = (opcodeOf op).toNat * 2048 + a.toNat * 256 := by
  have ha := a.isLt
  simp only [encR, BitVec.toNat_append, BitVec.toNat_ofNat]
  rw [← Nat.shiftLeft_add_eq_or_of_lt (by omega), ← Nat.shiftLeft_add_eq_or_of_lt (by omega)]
  simp only [Nat.shiftLeft_eq]; omega

theorem toNat_encRI (op : Op) (a : RegIx) (v : Byte) :
    (encRI op a v).toNat = (opcodeOf op).toNat * 2048 + a.toNat * 256 + v.toNat := by
  have ha := a.isLt; have hv := v.isLt
  simp only [encRI, BitVec.toNat_append]
  rw [← Nat.shiftLeft_add_eq_or_of_lt (by omega), ← Nat.shiftLeft_add_eq_or_of_lt (by omega)]
  simp only [Nat.shiftLeft_eq]; omega

theorem toNat_encRM (op : Op) (a : RegIx) (addr : Byte) :
    (encRM op a addr).toNat = (opcodeOf op).toNat * 2048 + a.toNat * 256 + addr.toNat :=
  toNat_encRI op a addr

theorem toNat_encJ (op : Op) (t : Byte) :
    (encJ op t).toNat = (opcodeOf op).toNat * 2048 + t.toNat := by
  have ht := t.isLt
  simp only [encJ, BitVec.toNat_append, BitVec.toNat_ofNat]
  rw [← Nat.shiftLeft_add_eq_or_of_lt (by omega), ← Nat.shiftLeft_add_eq_or_of_lt (by omega)]
  simp only [Nat.shiftLeft_eq]; omega

theorem toNat_opcode_append_zeros (c : Opcode) : (c ++ (0#11 : BitVec 11)).toNat = c.toNat * 2048 := by
  simp only [BitVec.toNat_append, BitVec.toNat_ofNat]
  rw [← Nat.shiftLeft_add_eq_or_of_lt (by omega)]
  simp only [Nat.shiftLeft_eq]; omega

theorem toNat_encN (op : Op) : (encN op).toNat = (opcodeOf op).toNat * 2048 :=
  toNat_opcode_append_zeros _

/-! ## The fields of the encoder's words -/

section
variable (op : Op) (a b : RegIx) (v : Byte)

@[simp] theorem ra_encRR : ra (encRR op a b) = a := by
  have := a.isLt; have := b.isLt
  apply BitVec.eq_of_toNat_eq; rw [toNat_ra, toNat_encRR]; omega

@[simp] theorem rb_encRR : rb (encRR op a b) = b := by
  have := a.isLt; have := b.isLt
  apply BitVec.eq_of_toNat_eq; rw [toNat_rb, toNat_encRR]; omega

@[simp] theorem ra_encR : ra (encR op a) = a := by
  have := a.isLt
  apply BitVec.eq_of_toNat_eq; rw [toNat_ra, toNat_encR]; omega

@[simp] theorem ra_encRI : ra (encRI op a v) = a := by
  have := a.isLt; have := v.isLt
  apply BitVec.eq_of_toNat_eq; rw [toNat_ra, toNat_encRI]; omega

@[simp] theorem imm_encRI : imm (encRI op a v) = v := by
  have := a.isLt; have := v.isLt
  apply BitVec.eq_of_toNat_eq; rw [toNat_imm, toNat_encRI]; omega

@[simp] theorem ra_encRM : ra (encRM op a v) = a := ra_encRI op a v

@[simp] theorem imm_encRM : imm (encRM op a v) = v := imm_encRI op a v

@[simp] theorem imm_encJ : imm (encJ op v) = v := by
  have := v.isLt
  apply BitVec.eq_of_toNat_eq; rw [toNat_imm, toNat_encJ]; omega

end

/-! ## What the decoder answers -/

/-- All that decoding does: the opcode selects an operation, or none (R54, R58, R59). -/
theorem decode_cases (w : Word) :
    (∃ op, opcodeOf op = opc w ∧ decode w = instrOf op w) ∨
      (Config.numOps ≤ (opc w).toNat ∧ decode w = .unassigned (opc w)) := by
  unfold decode
  cases h : opOf (opc w) with
  | some op => exact .inl ⟨op, opcodeOf_of_opOf h, rfl⟩
  | none => exact .inr ⟨opOf_eq_none.1 h, rfl⟩

/-- A word whose opcode is an operation's decodes to that operation. -/
theorem decode_of_opcode {w : Word} {op : Op} (h : opc w = opcodeOf op) : decode w = instrOf op w := by
  simp [decode, h]

/-- A word whose opcode is 16 to 31 decodes to the unassigned no-op. -/
theorem decode_of_unassigned {w : Word} (h : Config.numOps ≤ (opc w).toNat) :
    decode w = .unassigned (opc w) := by
  rw [decode, opOf_eq_none.2 h]

/-- What a word decodes to is well-formed. -/
theorem wf_decode (w : Word) : (decode w).wf = true := by
  rcases decode_cases w with ⟨op, -, hd⟩ | ⟨h, hd⟩
  · rw [hd]; cases op <;> rfl
  · rw [hd]; simpa [Instr.wf] using h

/-- A word is a HLT exactly by its opcode (R58, R96). -/
theorem decode_eq_hlt {w : Word} : decode w = .hlt ↔ opc w = opcodeOf .hlt := by
  constructor
  · intro h
    rcases decode_cases w with ⟨op, h1, hd⟩ | ⟨-, hd⟩
    · rw [h] at hd; rw [← h1]; cases op <;> first | rfl | simp [instrOf] at hd
    · rw [h] at hd; cases hd
  · intro h; rw [decode_of_opcode h]; rfl

end Sys2Proof
end

