-- ==== Sys2Proof/Laws/State.lean ====
section
/-! SUPPORT. What each state update does to each field, and what a register read sees after a register
write. -/

namespace Sys2Proof.Machine

/-! ## setReg -/

@[simp] theorem State.pc_setReg (s : State) (i : RegIx) (v : Word) : (s.setReg i v).pc = s.pc := rfl
@[simp] theorem State.flag_setReg (s : State) (i : RegIx) (v : Word) : (s.setReg i v).flag = s.flag := rfl
@[simp] theorem State.run_setReg (s : State) (i : RegIx) (v : Word) : (s.setReg i v).run = s.run := rfl
@[simp] theorem State.imem_setReg (s : State) (i : RegIx) (v : Word) : (s.setReg i v).imem = s.imem := rfl
@[simp] theorem State.dmem_setReg (s : State) (i : RegIx) (v : Word) : (s.setReg i v).dmem = s.dmem := rfl

/-- A register reads as it was last written (R11). -/
@[simp] theorem State.reg_setReg_self (s : State) (i : RegIx) (v : Word) : (s.setReg i v).reg i = v := by
  simp [State.reg, State.setReg]

/-- A register write leaves every other register (R11, R15). -/
theorem State.reg_setReg_of_ne (s : State) {i r : RegIx} (v : Word) (h : r ≠ i) :
    (s.setReg i v).reg r = s.reg r := by
  have h' : i.toNat ≠ r.toNat := fun e => h (BitVec.eq_of_toNat_eq e.symm)
  simp [State.reg, State.setReg, h']

/-- All that a register write does to register reads. -/
theorem State.reg_setReg (s : State) (i r : RegIx) (v : Word) :
    (s.setReg i v).reg r = if r = i then v else s.reg r := by
  split
  · subst r; exact s.reg_setReg_self i v
  · exact s.reg_setReg_of_ne v ‹_›

/-! ## setPc and advance -/

@[simp] theorem State.regs_setPc (s : State) (p : Word) : (s.setPc p).regs = s.regs := rfl
@[simp] theorem State.pc_setPc (s : State) (p : Word) : (s.setPc p).pc = p := rfl
@[simp] theorem State.flag_setPc (s : State) (p : Word) : (s.setPc p).flag = s.flag := rfl
@[simp] theorem State.run_setPc (s : State) (p : Word) : (s.setPc p).run = s.run := rfl
@[simp] theorem State.imem_setPc (s : State) (p : Word) : (s.setPc p).imem = s.imem := rfl
@[simp] theorem State.dmem_setPc (s : State) (p : Word) : (s.setPc p).dmem = s.dmem := rfl
@[simp] theorem State.reg_setPc (s : State) (p : Word) (r : RegIx) : (s.setPc p).reg r = s.reg r := rfl

@[simp] theorem State.regs_advance (s : State) : s.advance.regs = s.regs := rfl
@[simp] theorem State.pc_advance (s : State) : s.advance.pc = s.pc + 1 := rfl
@[simp] theorem State.flag_advance (s : State) : s.advance.flag = s.flag := rfl
@[simp] theorem State.run_advance (s : State) : s.advance.run = s.run := rfl
@[simp] theorem State.imem_advance (s : State) : s.advance.imem = s.imem := rfl
@[simp] theorem State.dmem_advance (s : State) : s.advance.dmem = s.dmem := rfl
@[simp] theorem State.reg_advance (s : State) (r : RegIx) : s.advance.reg r = s.reg r := rfl

/-! ## setFlag -/

@[simp] theorem State.regs_setFlag (s : State) (b : Bool) : (s.setFlag b).regs = s.regs := rfl
@[simp] theorem State.pc_setFlag (s : State) (b : Bool) : (s.setFlag b).pc = s.pc := rfl
@[simp] theorem State.flag_setFlag (s : State) (b : Bool) : (s.setFlag b).flag = b := rfl
@[simp] theorem State.run_setFlag (s : State) (b : Bool) : (s.setFlag b).run = s.run := rfl
@[simp] theorem State.imem_setFlag (s : State) (b : Bool) : (s.setFlag b).imem = s.imem := rfl
@[simp] theorem State.dmem_setFlag (s : State) (b : Bool) : (s.setFlag b).dmem = s.dmem := rfl
@[simp] theorem State.reg_setFlag (s : State) (b : Bool) (r : RegIx) : (s.setFlag b).reg r = s.reg r := rfl

/-! ## setRun and the fault -/

@[simp] theorem State.regs_setRun (s : State) (x : RunState) : (s.setRun x).regs = s.regs := rfl
@[simp] theorem State.pc_setRun (s : State) (x : RunState) : (s.setRun x).pc = s.pc := rfl
@[simp] theorem State.flag_setRun (s : State) (x : RunState) : (s.setRun x).flag = s.flag := rfl
@[simp] theorem State.run_setRun (s : State) (x : RunState) : (s.setRun x).run = x := rfl
@[simp] theorem State.imem_setRun (s : State) (x : RunState) : (s.setRun x).imem = s.imem := rfl
@[simp] theorem State.dmem_setRun (s : State) (x : RunState) : (s.setRun x).dmem = s.dmem := rfl
@[simp] theorem State.reg_setRun (s : State) (x : RunState) (r : RegIx) : (s.setRun x).reg r = s.reg r := rfl

/-- All that raising the fault does: only the run state changes (R99, R103). -/
theorem State.raiseFetchOutOfRange_eq (s : State) :
    s.raiseFetchOutOfRange = { s with run := .faulted } := rfl

/-! ## memWrite -/

@[simp] theorem State.regs_memWrite (s : State) (a : Byte) (v : Word) : (s.memWrite a v).regs = s.regs := rfl
@[simp] theorem State.pc_memWrite (s : State) (a : Byte) (v : Word) : (s.memWrite a v).pc = s.pc := rfl
@[simp] theorem State.flag_memWrite (s : State) (a : Byte) (v : Word) : (s.memWrite a v).flag = s.flag := rfl
@[simp] theorem State.run_memWrite (s : State) (a : Byte) (v : Word) : (s.memWrite a v).run = s.run := rfl
@[simp] theorem State.imem_memWrite (s : State) (a : Byte) (v : Word) : (s.memWrite a v).imem = s.imem := rfl
@[simp] theorem State.dmem_memWrite (s : State) (a : Byte) (v : Word) :
    (s.memWrite a v).dmem = s.dmem.writeWord a v := rfl
@[simp] theorem State.reg_memWrite (s : State) (a : Byte) (v : Word) (r : RegIx) :
    (s.memWrite a v).reg r = s.reg r := rfl

/-! ## placeWord -/

@[simp] theorem State.regs_placeWord (s : State) (w : Word) : (s.placeWord w).regs = s.regs := rfl
@[simp] theorem State.pc_placeWord (s : State) (w : Word) :
    (s.placeWord w).pc = zext16 (s.pc.setWidth 8) := rfl
@[simp] theorem State.flag_placeWord (s : State) (w : Word) : (s.placeWord w).flag = s.flag := rfl
@[simp] theorem State.run_placeWord (s : State) (w : Word) : (s.placeWord w).run = .running := rfl
@[simp] theorem State.imem_placeWord (s : State) (w : Word) :
    (s.placeWord w).imem = s.imem.writeWord (s.pc.setWidth 8) w := rfl
@[simp] theorem State.dmem_placeWord (s : State) (w : Word) : (s.placeWord w).dmem = s.dmem := rfl
@[simp] theorem State.reg_placeWord (s : State) (w : Word) (r : RegIx) : (s.placeWord w).reg r = s.reg r := rfl

/-! ## Two states are equal when their registers and other fields are -/

/-- Registers are compared one by one. -/
theorem State.regs_eq_of_reg {s t : State} (h : ∀ r, s.reg r = t.reg r) : s.regs = t.regs := by
  apply Vector.ext
  intro i hi
  have := h (BitVec.ofNat 3 i)
  have e : (BitVec.ofNat 3 i).toNat = i := by simp; omega
  simpa [State.reg, e] using this

/-- Reads of registers depend on the register file only. -/
theorem State.reg_eq_of_regs {s t : State} (h : s.regs = t.regs) (r : RegIx) : s.reg r = t.reg r := by
  simp [State.reg, h]

end Sys2Proof.Machine
end

