-- ==== Sys2Proof/Laws/Memory.lean ====
section
/-! SUPPORT. The laws of the two stores: a read after a write, the other cells, the canonical form, and
that the form makes equal stores equal data. -/

namespace Sys2Proof.Machine

/-! ## Cells -/

/-- A cell below every listed address reads as unlisted. -/
theorem Memory.readByte_eq_zero_of_lt : ∀ {m : Memory} {n : Nat}, (∀ c ∈ m, n < c.1) → m.readByte n = 0
  | [], _, _ => rfl
  | (k, v) :: m, n, h => by
    have hk : k ≠ n := Nat.ne_of_gt (h (k, v) (by simp))
    rw [Memory.readByte, if_neg hk]
    exact Memory.readByte_eq_zero_of_lt fun c hc => h c (by simp [hc])

/-- A write leaves every other cell. -/
theorem Memory.readByte_writeByte_of_ne (m : Memory) {n k : Nat} (b : Byte) (h : k ≠ n) :
    (m.writeByte n b).readByte k = m.readByte k := by
  have h' : n ≠ k := Ne.symm h
  induction m with
  | nil =>
    simp only [Memory.writeByte]
    split <;> simp [Memory.readByte, h']
  | cons c m ih =>
    obtain ⟨j, v⟩ := c
    simp only [Memory.writeByte]
    split
    · split
      · rfl
      · simp [Memory.readByte, h']
    · split
      · subst_vars
        split <;> simp [Memory.readByte, h']
      · simp [Memory.readByte, ih]

/-- The listed cells of a store after a write: the written cell or one listed before. -/
theorem Memory.mem_writeByte {m : Memory} {n : Nat} {b : Byte} {c : Host.Cell} (h : c ∈ m.writeByte n b) :
    c ∈ m ∨ (c = (n, b) ∧ b ≠ 0) := by
  induction m with
  | nil =>
    simp only [Memory.writeByte] at h
    split at h
    · simp at h
    · right; simp_all
  | cons d m ih =>
    obtain ⟨j, v⟩ := d
    simp only [Memory.writeByte] at h
    split at h
    · split at h
      · exact .inl h
      · rcases List.mem_cons.1 h with h | h
        · exact .inr ⟨h, ‹_›⟩
        · exact .inl h
    · split at h
      · split at h
        · exact .inl (List.mem_cons_of_mem _ h)
        · rcases List.mem_cons.1 h with h | h
          · exact .inr ⟨h, ‹_›⟩
          · exact .inl (List.mem_cons_of_mem _ h)
      · rcases List.mem_cons.1 h with h | h
        · exact .inl (h ▸ List.mem_cons_self)
        · rcases ih h with h | h
          · exact .inl (List.mem_cons_of_mem _ h)
          · exact .inr h

/-- A cell reads as it was last written, in a store whose addresses rise. -/
theorem Memory.readByte_writeByte_self {m : Memory} (hm : m.Pairwise (fun c d => c.1 < d.1)) (n : Nat)
    (b : Byte) : (m.writeByte n b).readByte n = b := by
  induction m with
  | nil =>
    simp only [Memory.writeByte]
    split <;> simp_all [Memory.readByte]
  | cons c m ih =>
    obtain ⟨j, v⟩ := c
    obtain ⟨hj, hm⟩ := List.pairwise_cons.1 hm
    simp only [Memory.writeByte]
    split
    next hlt =>
      split
      next hb =>
        subst hb
        apply Memory.readByte_eq_zero_of_lt
        intro c hc
        rcases List.mem_cons.1 hc with rfl | hc
        · exact hlt
        · exact Nat.lt_trans hlt (hj c hc)
      next => simp [Memory.readByte]
    next hlt =>
      split
      next hn =>
        subst hn
        split
        next hb => subst hb; exact Memory.readByte_eq_zero_of_lt hj
        next => simp [Memory.readByte]
      next hn =>
        rw [Memory.readByte, if_neg (Ne.symm hn)]
        exact ih hm

/-- A write inside the store keeps the canonical form. -/
theorem Memory.wf_writeByte {m : Memory} (hm : m.wf) {n : Nat} (hn : n < 2 * Config.dmemWords) (b : Byte) :
    (m.writeByte n b).wf := by
  constructor
  · replace hm := hm.1
    induction m with
    | nil =>
      simp only [Memory.writeByte]
      split <;> simp
    | cons c m ih =>
      obtain ⟨j, v⟩ := c
      obtain ⟨hj, hp⟩ := List.pairwise_cons.1 hm
      simp only [Memory.writeByte]
      split
      next hlt =>
        split
        · exact hm
        · refine List.pairwise_cons.2 ⟨fun c hc => ?_, hm⟩
          rcases List.mem_cons.1 hc with rfl | hc
          · exact hlt
          · exact Nat.lt_trans hlt (hj c hc)
      next hlt =>
        split
        next hn =>
          subst hn
          split
          · exact hp
          · exact List.pairwise_cons.2 ⟨hj, hp⟩
        next hne =>
          refine List.pairwise_cons.2 ⟨fun c hc => ?_, ih hp⟩
          rcases Memory.mem_writeByte hc with hc | ⟨rfl, -⟩
          · exact hj c hc
          · change j < n; omega
  · intro c hc
    rcases Memory.mem_writeByte hc with hc | ⟨rfl, hb⟩
    · exact hm.2 c hc
    · exact ⟨hn, hb⟩

/-! ## Words -/

theorem lowCell_lt (a : Byte) : lowCell a < 2 * Config.dmemWords := by
  have := a.isLt; simp only [lowCell, Config.dmemWords]; omega

theorem highCell_lt (a : Byte) : highCell a < 2 * Config.dmemWords := by
  have := a.isLt; simp only [highCell, Config.dmemWords]; omega

theorem lowCell_ne_highCell (a b : Byte) : lowCell a ≠ highCell b := by
  simp only [lowCell, highCell]; omega

theorem lowCell_ne_lowCell {a b : Byte} (h : a ≠ b) : lowCell a ≠ lowCell b := by
  have : a.toNat ≠ b.toNat := fun e => h (BitVec.eq_of_toNat_eq e)
  simp only [lowCell]; omega

theorem highCell_ne_highCell {a b : Byte} (h : a ≠ b) : highCell a ≠ highCell b := by
  have : a.toNat ≠ b.toNat := fun e => h (BitVec.eq_of_toNat_eq e)
  simp only [highCell]; omega

/-- A word is its two bytes. -/
@[simp] theorem wordOfBytes_highByte_lowByte (v : Word) : wordOfBytes (highByte v) (lowByte v) = v := by
  apply BitVec.eq_of_getLsbD_eq
  intro i hi
  simp only [wordOfBytes, highByte, lowByte, BitVec.getLsbD_append, BitVec.getLsbD_extractLsb']
  by_cases h : i < 8
  · simp [h]
  · have e : 8 + (i - 8) = i := by omega
    have h8 : i - 8 < 8 := by omega
    simp [h, e, h8]

@[simp] theorem lowByte_wordOfBytes (hi lo : Byte) : lowByte (wordOfBytes hi lo) = lo := by
  apply BitVec.eq_of_getLsbD_eq
  intro i h
  rw [lowByte, wordOfBytes, BitVec.getLsbD_extractLsb', BitVec.getLsbD_append]
  simp [h]

@[simp] theorem highByte_wordOfBytes (hi lo : Byte) : highByte (wordOfBytes hi lo) = hi := by
  apply BitVec.eq_of_getLsbD_eq
  intro i h
  rw [highByte, wordOfBytes, BitVec.getLsbD_extractLsb', BitVec.getLsbD_append]
  simp [h]

/-- The word just written is the word read (R36). -/
theorem Memory.readWord_writeWord_self {m : Memory} (hm : m.wf) (a : Byte) (v : Word) :
    (m.writeWord a v).readWord a = v := by
  have h1 := Memory.wf_writeByte hm (lowCell_lt a) (lowByte v)
  rw [Memory.readWord, Memory.writeWord, Memory.readByte_writeByte_self h1.1,
    Memory.readByte_writeByte_of_ne _ _ (lowCell_ne_highCell a a), Memory.readByte_writeByte_self hm.1,
    wordOfBytes_highByte_lowByte]

/-- A word write leaves every byte cell but its own two. -/
theorem Memory.readByte_writeWord_of_ne (m : Memory) (a : Byte) (v : Word) {n : Nat}
    (hl : n ≠ lowCell a) (hh : n ≠ highCell a) : (m.writeWord a v).readByte n = m.readByte n := by
  rw [Memory.writeWord, Memory.readByte_writeByte_of_ne _ _ hh, Memory.readByte_writeByte_of_ne _ _ hl]

/-- A word write leaves every other word (R36). -/
theorem Memory.readWord_writeWord_of_ne (m : Memory) {a b : Byte} (v : Word) (h : b ≠ a) :
    (m.writeWord a v).readWord b = m.readWord b := by
  rw [Memory.readWord, Memory.readWord,
    Memory.readByte_writeWord_of_ne _ _ _ (Ne.symm (lowCell_ne_highCell a b)) (highCell_ne_highCell h),
    Memory.readByte_writeWord_of_ne _ _ _ (lowCell_ne_lowCell h) (lowCell_ne_highCell b a)]

/-- All that a word write does to word reads. -/
theorem Memory.readWord_writeWord {m : Memory} (hm : m.wf) (a b : Byte) (v : Word) :
    (m.writeWord a v).readWord b = if b = a then v else m.readWord b := by
  split
  · subst b; exact Memory.readWord_writeWord_self hm a v
  · exact Memory.readWord_writeWord_of_ne m v ‹_›

/-- A word write keeps the canonical form. -/
theorem Memory.wf_writeWord {m : Memory} (hm : m.wf) (a : Byte) (v : Word) : (m.writeWord a v).wf :=
  Memory.wf_writeByte (Memory.wf_writeByte hm (lowCell_lt a) _) (highCell_lt a) _

/-- The store with nothing listed has the canonical form and reads 0 everywhere. -/
theorem Memory.wf_nil : Memory.wf [] := by simp [Memory.wf]

@[simp] theorem Memory.readWord_nil (a : Byte) : Memory.readWord [] a = 0 := by
  simp [Memory.readWord, Memory.readByte, wordOfBytes]

/-! ## The stores in the state -/

/-- The data store after a write of it, read by word. -/
theorem State.memRead_memWrite {s : State} (hs : s.dmem.wf) (a b : Byte) (v : Word) :
    (s.memWrite a v).memRead b = if b = a then v else s.memRead b :=
  Memory.readWord_writeWord hs a b v

/-- The data address a register, pc, flag or run update leaves: the whole data store. -/
@[simp] theorem State.memRead_setReg (s : State) (i : RegIx) (v : Word) (a : Byte) :
    (s.setReg i v).memRead a = s.memRead a := rfl
@[simp] theorem State.memRead_setPc (s : State) (p : Word) (a : Byte) :
    (s.setPc p).memRead a = s.memRead a := rfl
@[simp] theorem State.memRead_setFlag (s : State) (b : Bool) (a : Byte) :
    (s.setFlag b).memRead a = s.memRead a := rfl
@[simp] theorem State.memRead_setRun (s : State) (x : RunState) (a : Byte) :
    (s.setRun x).memRead a = s.memRead a := rfl

/-- A fetch answers the word at pc exactly when pc is inside the store (R67). -/
theorem State.iFetch_eq_some {s : State} {w : Word} :
    s.iFetch = some w ↔ s.pc.toNat < Config.imemWords ∧ s.imem.readWord (s.pc.setWidth 8) = w := by
  simp only [State.iFetch]
  split <;> simp_all

/-- A fetch answers nothing exactly when pc is above 255 (R67). -/
theorem State.iFetch_eq_none {s : State} : s.iFetch = none ↔ Config.imemWords ≤ s.pc.toNat := by
  simp only [State.iFetch]
  split <;> simp_all

end Sys2Proof.Machine
end

