-- ==== Sys2Proof/Laws/Exec.lean ====
section
/-! SUPPORT. What each instruction does, as one equation each, and what every instruction has in common. -/

namespace Sys2Proof.Machine

/-! ## The state each meaning answers -/

theorem exec_mov (a b : RegIx) (s : State) : exec (.mov a b) s = .next (s.setReg a (s.reg b)) := rfl
theorem exec_add (a b : RegIx) (s : State) : exec (.add a b) s = .next (s.setReg a (s.reg a + s.reg b)) := rfl
theorem exec_sub (a b : RegIx) (s : State) : exec (.sub a b) s = .next (s.setReg a (s.reg a - s.reg b)) := rfl
theorem exec_and (a b : RegIx) (s : State) : exec (.and a b) s = .next (s.setReg a (s.reg a &&& s.reg b)) := rfl
theorem exec_or (a b : RegIx) (s : State) : exec (.or a b) s = .next (s.setReg a (s.reg a ||| s.reg b)) := rfl
theorem exec_sl (a : RegIx) (s : State) : exec (.sl a) s = .next (s.setReg a (aluSl (s.reg a))) := rfl
theorem exec_sr (a : RegIx) (s : State) : exec (.sr a) s = .next (s.setReg a (aluSr (s.reg a))) := rfl
theorem exec_sra (a : RegIx) (s : State) : exec (.sra a) s = .next (s.setReg a (aluSra (s.reg a))) := rfl
theorem exec_ldl (a : RegIx) (v : Byte) (s : State) :
    exec (.ldl a v) s = .next (s.setReg a (aluLdl (s.reg a) v)) := rfl
theorem exec_ldh (a : RegIx) (v : Byte) (s : State) :
    exec (.ldh a v) s = .next (s.setReg a (aluLdh (s.reg a) v)) := rfl
theorem exec_cmp (a b : RegIx) (s : State) : exec (.cmp a b) s = .next (s.setFlag (s.reg a == s.reg b)) := rfl
theorem exec_je (t : Byte) (s : State) :
    exec (.je t) s = .next (if s.flag then s.setPc (zext16 t) else s) := rfl
theorem exec_jmp (t : Byte) (s : State) : exec (.jmp t) s = .next (s.setPc (zext16 t)) := rfl
theorem exec_ld (a : RegIx) (addr : Byte) (s : State) :
    exec (.ld a addr) s = .next (s.setReg a (s.memRead addr)) := rfl
theorem exec_st (a : RegIx) (addr : Byte) (s : State) :
    exec (.st a addr) s = .next (s.memWrite addr (s.reg a)) := rfl
theorem exec_hlt (s : State) : exec .hlt s = .next (s.setRun .halted) := rfl
theorem exec_unassigned (c : Opcode) (s : State) : exec (.unassigned c) s = .next s := rfl

/-! ## What a next state can be -/

/-- All that an instruction can do: write one register, write the flag, set pc to a branch target, write
one data word, halt, or nothing. -/
theorem exec_cases {i : Instr} {s t : State} (h : exec i s = .next t) :
    (∃ a v, t = s.setReg a v) ∨ (∃ b, t = s.setFlag b) ∨ (∃ k : Byte, t = s.setPc (zext16 k)) ∨
      (∃ a addr, i = .st a addr ∧ t = s.memWrite addr (s.reg a)) ∨ (i = .hlt ∧ t = s.setRun .halted) ∨
      t = s := by
  cases i with
  | mov a b => exact .inl ⟨_, _, (Host.Outcome.next.inj h).symm⟩
  | add a b => exact .inl ⟨_, _, (Host.Outcome.next.inj h).symm⟩
  | sub a b => exact .inl ⟨_, _, (Host.Outcome.next.inj h).symm⟩
  | and a b => exact .inl ⟨_, _, (Host.Outcome.next.inj h).symm⟩
  | or a b => exact .inl ⟨_, _, (Host.Outcome.next.inj h).symm⟩
  | sl a => exact .inl ⟨_, _, (Host.Outcome.next.inj h).symm⟩
  | sr a => exact .inl ⟨_, _, (Host.Outcome.next.inj h).symm⟩
  | sra a => exact .inl ⟨_, _, (Host.Outcome.next.inj h).symm⟩
  | ldl a v => exact .inl ⟨_, _, (Host.Outcome.next.inj h).symm⟩
  | ldh a v => exact .inl ⟨_, _, (Host.Outcome.next.inj h).symm⟩
  | ld a addr => exact .inl ⟨_, _, (Host.Outcome.next.inj h).symm⟩
  | cmp a b => exact .inr (.inl ⟨_, (Host.Outcome.next.inj h).symm⟩)
  | jmp k => exact .inr (.inr (.inl ⟨k, (Host.Outcome.next.inj h).symm⟩))
  | je k =>
    rw [exec_je] at h
    have h := (Host.Outcome.next.inj h).symm
    split at h
    · exact .inr (.inr (.inl ⟨k, h⟩))
    · exact .inr (.inr (.inr (.inr (.inr h))))
  | st a addr => exact .inr (.inr (.inr (.inl ⟨a, addr, rfl, (Host.Outcome.next.inj h).symm⟩)))
  | hlt => exact .inr (.inr (.inr (.inr (.inl ⟨rfl, (Host.Outcome.next.inj h).symm⟩))))
  | unassigned c => exact .inr (.inr (.inr (.inr (.inr (Host.Outcome.next.inj h).symm))))

/-- No instruction writes the instruction store (R25). -/
theorem exec_imem {i : Instr} {s t : State} (h : exec i s = .next t) : t.imem = s.imem := by
  rcases exec_cases h with ⟨_, _, rfl⟩ | ⟨_, rfl⟩ | ⟨_, rfl⟩ | ⟨_, _, -, rfl⟩ | ⟨-, rfl⟩ | rfl <;> rfl

/-- No instruction but HLT writes the run state (R16). -/
theorem exec_run {i : Instr} {s t : State} (h : exec i s = .next t) (hi : i ≠ .hlt) : t.run = s.run := by
  rcases exec_cases h with ⟨_, _, rfl⟩ | ⟨_, rfl⟩ | ⟨_, rfl⟩ | ⟨_, _, -, rfl⟩ | ⟨rfl, -⟩ | rfl <;>
    first | rfl | exact absurd rfl hi

end Sys2Proof.Machine
end

