-- ==== Sys2Proof/Laws/PerInstr.lean ====
section
/-! SUPPORT. Statements made instruction by instruction, about the instruction as syntax. -/

namespace Sys2Proof.Laws.OpcodeField

/-- The opcode field of an instruction's word is the instruction's opcode (spec/30_encoding.md R61). -/
def Statement (i : Instr) : Prop := opc (encode i) = i.opcode

/-- The opcode field is the quotient of the word by 2^11. -/
theorem of_toNat {w : Word} {c : Opcode} {r : Nat} (h : w.toNat = c.toNat * 2048 + r) (hr : r < 2048) :
    opc w = c := by
  apply BitVec.eq_of_toNat_eq
  rw [toNat_opc]; omega

theorem encRR_opc (op : Op) (a b : RegIx) : opc (encRR op a b) = opcodeOf op := by
  have := a.isLt; have := b.isLt
  exact of_toNat (r := a.toNat * 256 + b.toNat * 32) (by rw [toNat_encRR]; omega) (by omega)

theorem encR_opc (op : Op) (a : RegIx) : opc (encR op a) = opcodeOf op := by
  have := a.isLt
  exact of_toNat (toNat_encR op a) (by omega)

theorem encRI_opc (op : Op) (a : RegIx) (v : Byte) : opc (encRI op a v) = opcodeOf op := by
  have := a.isLt; have := v.isLt
  exact of_toNat (r := a.toNat * 256 + v.toNat) (by rw [toNat_encRI]; omega) (by omega)

theorem encJ_opc (op : Op) (t : Byte) : opc (encJ op t) = opcodeOf op :=
  of_toNat (toNat_encJ op t) (by have := t.isLt; omega)

theorem zeros_opc (c : Opcode) : opc (c ++ (0#11 : BitVec 11)) = c :=
  of_toNat (r := 0) (by rw [toNat_opcode_append_zeros, Nat.add_zero]) (by decide)

theorem mov (a b : RegIx) : Statement (.mov a b) := encRR_opc .mov a b
theorem add (a b : RegIx) : Statement (.add a b) := encRR_opc .add a b
theorem sub (a b : RegIx) : Statement (.sub a b) := encRR_opc .sub a b
theorem and (a b : RegIx) : Statement (.and a b) := encRR_opc .and a b
theorem or (a b : RegIx) : Statement (.or a b) := encRR_opc .or a b
theorem sl (a : RegIx) : Statement (.sl a) := encR_opc .sl a
theorem sr (a : RegIx) : Statement (.sr a) := encR_opc .sr a
theorem sra (a : RegIx) : Statement (.sra a) := encR_opc .sra a
theorem ldl (a : RegIx) (v : Byte) : Statement (.ldl a v) := encRI_opc .ldl a v
theorem ldh (a : RegIx) (v : Byte) : Statement (.ldh a v) := encRI_opc .ldh a v
theorem cmp (a b : RegIx) : Statement (.cmp a b) := encRR_opc .cmp a b
theorem je (t : Byte) : Statement (.je t) := encJ_opc .je t
theorem jmp (t : Byte) : Statement (.jmp t) := encJ_opc .jmp t
theorem ld (a : RegIx) (addr : Byte) : Statement (.ld a addr) := encRI_opc .ld a addr
theorem st (a : RegIx) (addr : Byte) : Statement (.st a addr) := encRI_opc .st a addr
theorem hlt : Statement .hlt := zeros_opc _
theorem unassigned (c : Opcode) : Statement (.unassigned c) := zeros_opc c

end Sys2Proof.Laws.OpcodeField
end

