-- ==== Sys2Proof/Laws/Step.lean ====
section
/-! SUPPORT. What one step can do, once, and how a run unfolds step by step. -/

namespace Sys2Proof.Machine

/-! ## The step, by run state and fetch -/

theorem step_halted {s : State} (h : s.run = .halted) : step s = .fault .halted := by simp [step, h]

theorem step_faulted {s : State} (h : s.run = .faulted) : step s = .fault (.fetchOutOfRange s.pc) := by
  simp [step, h]

theorem step_of_iFetch_eq_none {s : State} (hr : s.run = .running) (hf : s.iFetch = none) :
    step s = .next s.raiseFetchOutOfRange := by simp [step, hr, hf]

theorem step_of_iFetch_eq_some {s : State} {w : Word} (hr : s.run = .running) (hf : s.iFetch = some w) :
    step s = exec (decode w) s.advance := by simp [step, hr, hf]

/-- All that a step with a next state can be: an executed instruction, or the fetch fault, from RUNNING. -/
theorem step_cases {s t : State} (h : step s = .next t) :
    s.run = .running ∧
      ((∃ w, s.iFetch = some w ∧ exec (decode w) s.advance = .next t) ∨
        (s.iFetch = none ∧ t = s.raiseFetchOutOfRange)) := by
  cases hr : s.run with
  | halted => rw [step_halted hr] at h; cases h
  | faulted => rw [step_faulted hr] at h; cases h
  | running =>
    refine ⟨rfl, ?_⟩
    cases hf : s.iFetch with
    | none =>
      rw [step_of_iFetch_eq_none hr hf] at h
      exact .inr ⟨rfl, (Host.Outcome.next.inj h).symm⟩
    | some w =>
      rw [step_of_iFetch_eq_some hr hf] at h
      exact .inl ⟨w, rfl, h⟩

/-! ## Runs -/

@[simp] theorem State.runFor_zero (s : State) : s.runFor 0 = s := rfl

theorem State.runFor_succ_of_next {s t : State} (h : step s = .next t) (n : Nat) :
    s.runFor (n + 1) = t.runFor n := by simp [State.runFor, h]

theorem State.runFor_of_stopped {s : State} (h : s.run ≠ .running) (n : Nat) : s.runFor n = s := by
  cases n with
  | zero => rfl
  | succ n =>
    cases hr : s.run with
    | running => exact absurd hr h
    | halted => simp [State.runFor, step_halted hr]
    | faulted => simp [State.runFor, step_faulted hr]

@[simp] theorem State.traceFor_zero (s : State) : s.traceFor 0 = [] := rfl

theorem State.traceFor_succ_of_next {s t : State} (h : step s = .next t) (n : Nat) :
    s.traceFor (n + 1) = s.traceRecord.toList ++ t.traceFor n := by simp [State.traceFor, h]

/-! ## Addresses -/

/-- A pc inside the store is the zero-extension of its low eight bits. -/
theorem zext16_setWidth_of_lt {p : Word} (h : p.toNat < Config.imemWords) : zext16 (p.setWidth 8) = p := by
  apply BitVec.eq_of_toNat_eq
  simp only [zext16, BitVec.toNat_setWidth]
  simp only [Config.imemWords] at h
  omega

@[simp] theorem toNat_zext16 (v : Byte) : (zext16 v).toNat = v.toNat := by
  have := v.isLt
  simp only [zext16, BitVec.toNat_setWidth]; omega

@[simp] theorem setWidth_zext16 (v : Byte) : (zext16 v).setWidth 8 = v := by
  apply BitVec.eq_of_toNat_eq
  have := v.isLt
  simp only [zext16, BitVec.toNat_setWidth]; omega

/-- The advance from inside the store is to at most 256 (R69). -/
theorem toNat_pc_advance {s : State} (h : s.pc.toNat < Config.imemWords) :
    s.advance.pc.toNat = s.pc.toNat + 1 := by
  simp only [Config.imemWords] at h
  simp [BitVec.toNat_add]; omega

end Sys2Proof.Machine
end

