-- ==== Sys2Proof/Tests/Slice0.lean ====
section
/-! SUPPORT. The model's own tests. Every expected value is the spec's: the words of spec/30_encoding.md R64
and the vectors L1 and L2 of spec/95_test_vectors.md, named in each section; the words of the decode tests
are written out bit by bit from the patterns of R55 and R57. -/

namespace Sys2Proof.Tests

open Sys2Proof.Machine

/-! ## WellFormed: the one check refuses an opcode value that an operation has (R57, R59) -/

theorem test_wf_refuses_assigned_opcode : (Instr.unassigned 15).wf = false := by decide
theorem test_wf_accepts_unassigned_opcode : (Instr.unassigned 16).wf = true := by decide

/-! ## Decode: every constructor, by a word written from its pattern -/

theorem test_decode_mov : decode 0b00000_011_101_00000 = .mov 3 5 := by decide
theorem test_decode_add : decode 0b00001_010_001_00000 = .add 2 1 := by decide
theorem test_decode_sub : decode 0b00010_000_001_00000 = .sub 0 1 := by decide
theorem test_decode_and : decode 0b00011_100_110_00000 = .and 4 6 := by decide
theorem test_decode_or : decode 0b00100_111_000_00000 = .or 7 0 := by decide
theorem test_decode_sl : decode 0b00101_001_00000000 = .sl 1 := by decide
theorem test_decode_sr : decode 0b00110_010_00000000 = .sr 2 := by decide
theorem test_decode_sra : decode 0b00111_011_00000000 = .sra 3 := by decide
theorem test_decode_ldl : decode 0b01000_000_00110100 = .ldl 0 0x34 := by decide
theorem test_decode_ldh : decode 0b01001_000_00010010 = .ldh 0 0x12 := by decide
theorem test_decode_cmp : decode 0b01010_010_011_00000 = .cmp 2 3 := by decide
theorem test_decode_je : decode 0b01011_000_00001110 = .je 14 := by decide
theorem test_decode_jmp : decode 0b01100_000_00001000 = .jmp 8 := by decide
theorem test_decode_ld : decode 0b01101_001_01000000 = .ld 1 64 := by decide
theorem test_decode_st : decode 0b01110_000_01000000 = .st 0 64 := by decide
theorem test_decode_hlt : decode 0b01111_000_00000000 = .hlt := by decide
theorem test_decode_unassigned : decode 0b10000_000_00000000 = .unassigned 16 := by decide
theorem test_decode_all_ones : decode 0xFFFF = .unassigned 31 := by decide

/-- The unused bits of RR, R, J and N words are ignored (R56; L2-IGN-1, L2-IGN-2, L2-JMP-3, L2-HLT-2). -/
theorem test_decode_ignores_unused_bits :
    decode 0x0A3F = .add 2 1 ∧ decode 0x29FF = .sl 1 ∧ decode 0x6708 = .jmp 8 ∧ decode 0x7FFF = .hlt := by
  decide

theorem test_decode_bytes_truncated : decodeBytes [0x34] = .error .truncated := by decide
theorem test_decode_table_word : decodeTableWord 16 0x6FFF = some (.ld 7 255) := by decide

/-! ## Encode and assemble: the examples of R64 -/

theorem test_encode_examples :
    encode (.add 2 1) = 0x0A20 ∧ encode (.sra 5) = 0x3D00 ∧ encode (.ldl 3 10) = 0x430A ∧
      encode (.je 14) = 0x580E ∧ encode (.st 0 64) = 0x7040 ∧ encode .hlt = 0x7800 := by decide

theorem test_assemble_register_forms :
    assemble ["ADD r2, r1".toList, "sra r5 ; one place".toList, "LDL r3, 10".toList] =
      .ok [0x0A20, 0x3D00, 0x430A] := by decide
theorem test_assemble_other_forms :
    assemble ["JE 14".toList, "ST r0, 0x40".toList, "HLT".toList] = .ok [0x580E, 0x7040, 0x7800] := by
  decide
theorem test_assemble_label :
    assemble ["MOV r0, r0".toList, "loop: JMP loop".toList] = .ok [0x0000, 0x6001] := by decide
theorem test_assemble_refuses_register : assemble ["SL r8".toList] = .error (.registerOutOfRange 8) := by
  decide
theorem test_assemble_refuses_value : assemble ["JMP 256".toList] = .error (.valueOutOfRange 256) := by
  decide

/-! ## Steps: the vectors of L2 -/

/-- A state about to fetch `w` at `pc`, with the listed registers and everything else as after reset. -/
def probe (pc : Word) (flag : Bool) (rs : List (RegIx × Word)) (w : Word) : State :=
  rs.foldl (fun s r => s.setReg r.1 r.2) { (State.reset.setPc pc).placeWord w with flag := flag }

/-- The state after one step, if there is one. -/
def after (s : State) : Option State :=
  match step s with
  | .next t => some t
  | .fault _ => none
  | .refused _ => none

theorem test_mov : (after (probe 0 false [(3, 0x1111), (5, 0x1234)] 0x03A0)).map (fun t => (t.reg 3, t.pc)) =
    some (0x1234, 1) := by decide
theorem test_add_wraps : (after (probe 0 true [(2, 0xFFFF), (1, 1)] 0x0A20)).map (fun t => (t.reg 2, t.flag)) =
    some (0, true) := by decide
theorem test_add_same_register : (after (probe 0 false [(4, 0x4001)] 0x0C80)).map (fun t => t.reg 4) =
    some 0x8002 := by decide
theorem test_sub_wraps : (after (probe 0 false [(1, 3), (2, 5)] 0x1140)).map (fun t => t.reg 1) =
    some 0xFFFE := by decide
theorem test_and : (after (probe 0 false [(4, 0xF0F0), (6, 0x3C3C)] 0x1CC0)).map (fun t => t.reg 4) =
    some 0x3030 := by decide
theorem test_or : (after (probe 0 false [(7, 0xF000), (0, 0x000F)] 0x2700)).map (fun t => t.reg 7) =
    some 0xF00F := by decide
theorem test_sl : (after (probe 0 false [(1, 0x8001)] 0x2900)).map (fun t => (t.reg 1, t.flag)) =
    some (2, false) := by decide
theorem test_sr : (after (probe 0 false [(2, 0x8001)] 0x3200)).map (fun t => t.reg 2) = some 0x4000 := by
  decide
theorem test_sra : (after (probe 0 false [(3, 0x8000)] 0x3B00)).map (fun t => t.reg 3) = some 0xC000 := by
  decide
theorem test_sra_positive : (after (probe 0 false [(3, 0x7FFF)] 0x3B00)).map (fun t => t.reg 3) =
    some 0x3FFF := by decide
theorem test_ldl_keeps_high : (after (probe 0 false [(0, 0x8000)] 0x40FF)).map (fun t => t.reg 0) =
    some 0x80FF := by decide
theorem test_ldh_keeps_low : (after (probe 0 false [(0, 0x00CD)] 0x4812)).map (fun t => t.reg 0) =
    some 0x12CD := by decide
theorem test_cmp_equal : (after (probe 0 false [(2, 10), (3, 10)] 0x5260)).map (fun t => (t.flag, t.pc)) =
    some (true, 1) := by decide
theorem test_cmp_clears : (after (probe 0 true [(2, 9), (3, 10)] 0x5260)).map (fun t => t.flag) =
    some false := by decide
theorem test_je_taken : (after (probe 12 true [] 0x580E)).map (fun t => (t.pc, t.flag)) =
    some (14, true) := by decide
theorem test_je_at_255_falls_through : (after (probe 255 false [] 0x5800)).map (fun t => t.pc) =
    some 256 := by decide
theorem test_jmp : (after (probe 13 false [] 0x6008)).map (fun t => t.pc) = some 8 := by decide
theorem test_ld : (after ((probe 0 false [] 0x6FFF).memWrite 255 0xBEEF)).map (fun t => t.reg 7) =
    some 0xBEEF := by decide
theorem test_st : (after (probe 0 false [(0, 0x0037)] 0x7040)).map (fun t => (t.memRead 64, t.memRead 65)) =
    some (0x0037, 0) := by decide
/-- L2-ST-2: the instruction store keeps the word at the address stored to. -/
theorem test_st_keeps_imem : (after (probe 0 false [(5, 0xFFFF)] 0x7500)).map
    (fun t => (t.memRead 0, t.imem.readWord 0)) = some (0xFFFF, 0x7500) := by decide
theorem test_hlt : (after (probe 14 false [] 0x7800)).map (fun t => (t.run, t.pc)) =
    some (.halted, 15) := by decide
theorem test_unassigned : (after (probe 3 true [(0, 1)] 0xA5A5)).map (fun t => (t.pc, t.reg 0, t.flag)) =
    some (4, 1, true) := by decide
/-- L2-FLT-1: pc 256 is a fault, with no trace record, and pc stays. -/
theorem test_fetch_fault : (after (State.reset.setPc 256)).map (fun t => (t.run, t.pc)) =
    some (.faulted, 256) ∧ (State.reset.setPc 256).traceRecord = none := by decide
theorem test_trace_record : (probe 12 false [(0, 45), (1, 1), (2, 9), (3, 10)] 0x580E).traceRecord =
    some ⟨12, 0x580E, 45, 1, 9, 10⟩ := by decide

/-- The host's harness runs the word it places (log entry 6). -/
theorem test_with_fetch_word : (after (State.reset.withFetchWord 16 0x7800)).map (fun t => (t.run, t.pc)) =
    some (.halted, 1) := by decide

/-! ## The stores keep their canonical form -/

theorem test_write_zero_lists_nothing : ((State.reset.memWrite 64 0x0037).memWrite 64 0).dmem = [] := by
  decide
theorem test_write_keeps_order : ((State.reset.memWrite 64 0x0100).memWrite 1 0x0203).dmem =
    [(2, 3), (3, 2), (129, 1)] := by decide

/-! ## The host -/

theorem test_launch_holds_the_program : (State.launchSource [0x4005, 0x7800]).map
    (fun s => (s.imem.readWord 0, s.imem.readWord 1, s.imem.readWord 2, s.pc)) =
      some (0x4005, 0x7800, 0, 0) := by decide
theorem test_report_when_halted :
    ((State.reset.memWrite 64 55).setRun .halted).finalReport = some 55 ∧
      ((State.reset.memWrite 64 55).setRun .faulted).finalReport = none := by decide

/-! ## Witnesses: states and operands that meet the hypotheses of the statements

Each is named after its statement. A statement with several clauses has one witness for each, at a boundary
of its range. -/

theorem witness_DecodeOfEncodeGivesTheInstruction : ∀ c, Instr.st 7 255 ≠ .unassigned c :=
  fun _ => Instr.noConfusion
theorem witness_DecodeOfEncodeUnassigned :
    (Instr.unassigned 16).wf = true ∧ (Instr.unassigned 31).wf = true := by decide
theorem witness_UnusedBitsHaveNoEffect :
    (0x0A3F : Word) ≠ 0x0A20 ∧
      (0x0A3F : Word) &&& (decode 0x0A20).usedBits = (0x0A20 : Word) &&& (decode 0x0A20).usedBits := by decide
theorem witness_AssemblerRefusesExactlyOutOfRange :
    asmRR .add 7 7 = .ok 0x0FE0 ∧ asmRR .add 8 7 = .error (.registerOutOfRange 8) ∧
      asmR .sl 7 = .ok 0x2F00 ∧ asmR .sl 8 = .error (.registerOutOfRange 8) ∧
      asmRI .ldl 7 255 = .ok 0x47FF ∧ asmRI .ldl 7 256 = .error (.valueOutOfRange 256) ∧
      asmJ .jmp 255 = .ok 0x60FF ∧ asmJ .jmp 256 = .error (.valueOutOfRange 256) ∧
      asmRM .st 7 255 = .ok 0x77FF ∧ asmRM .st 8 255 = .error (.registerOutOfRange 8) := by decide
theorem witness_StepRunsTheDecodedInstruction :
    ∃ s : State, s.run = .running ∧ s.pc.toNat ≤ 255 ∧
      decodeBytes [s.imem.readByte (2 * s.pc.toNat), s.imem.readByte (2 * s.pc.toNat + 1)] =
        .ok (.add 2 1, []) :=
  ⟨probe 255 false [] 0x0A20, by decide⟩
theorem witness_StepFollowsThePseudocode :
    (∃ s : State, s.run = .running ∧ s.pc.toNat = 255 ∧ s.dmem.wf ∧ s.dmem ≠ []) ∧
      (∃ s : State, s.run = .running ∧ s.pc.toNat = 256 ∧ s.dmem.wf) ∧ (∃ s : State, s.run ≠ .running) :=
  ⟨⟨(probe 255 false [] 0x7500).memWrite 255 0x1234, by decide⟩, ⟨State.reset.setPc 256, by decide⟩,
    ⟨State.reset.setRun .halted, by decide⟩⟩
theorem witness_PlacedWordIsTheOneExecuted :
    ∃ s : State, s.imem.wf ∧ s.imem ≠ [] ∧ s.pc.toNat ≤ 255 := ⟨probe 255 false [] 0x7800, by decide⟩

/-- A HLT at the last address, after it the HALTED state, and a fault at 256: the invariant holds before
each. -/
theorem witness_StepKeepsTheInvariant :
    (∃ s t, State.Inv s ∧ step s = .next t ∧ t.run = .halted) ∧
      (∃ s t, State.Inv s ∧ step s = .next t ∧ t.run = .faulted) :=
  ⟨⟨probe 255 false [] 0x7800, _, ⟨by decide, by decide, by decide, (fun h => by cases h), fun h => by cases h⟩,
      rfl, rfl⟩,
    ⟨State.reset.setPc 256, _, ⟨by decide, by decide, by decide, (fun h => by cases h), fun h => by cases h⟩,
      rfl, rfl⟩⟩
theorem witness_JumpIfEqualBranchesOnTheFlag :
    (probe 12 true [] 0x580E).flag = true ∧ (probe 12 false [] 0x580E).flag = false := by decide
theorem witness_BranchToItselfRunsForever :
    (∃ s : State, s.run = .running ∧ s.pc.toNat = (255 : Byte).toNat ∧
        decode (s.imem.readWord 255) = .jmp 255) ∧
      (∃ s : State, s.run = .running ∧ s.pc.toNat = (0 : Byte).toNat ∧
        decode (s.imem.readWord 0) = .je 0 ∧ s.flag = true) :=
  ⟨⟨probe 255 false [] 0x60FF, by decide⟩, ⟨probe 0 true [] 0x5800, by decide⟩⟩

/-- A CMP of equal or of unequal registers at the last address that has a next one, with a JE after it. -/
def compareThenJump (x : Word) : State :=
  { probe 254 false [(2, 10), (3, x)] 0x5260 with imem := (Memory.writeWord [] 254 0x5260).writeWord 255 0x580E }

theorem test_compare_word :
    decode (((Memory.writeWord [] 254 0x5260).writeWord 255 0x580E).readWord 254) = .cmp 2 3 := by decide
theorem test_jump_word :
    decode (((Memory.writeWord [] 254 0x5260).writeWord 255 0x580E).readWord (254 + 1)) = .je 14 := by decide
theorem witness_CompareThenJumpBranchesOnEquality (x : Word) :
    (compareThenJump x).run = .running ∧ (compareThenJump x).pc.toNat = (254 : Byte).toNat ∧
      decode ((compareThenJump x).imem.readWord 254) = .cmp 2 3 ∧
      decode ((compareThenJump x).imem.readWord (254 + 1)) = .je 14 :=
  ⟨rfl, by rfl, test_compare_word, test_jump_word⟩
theorem witness_CompareThenJumpBranchesOnEquality_clauses :
    (compareThenJump 10).reg 2 = (compareThenJump 10).reg 3 ∧
      (compareThenJump 9).reg 2 ≠ (compareThenJump 9).reg 3 := by decide
theorem witness_StoreWritesOneWholeWord :
    ∃ s : State, s.dmem.wf ∧ s.dmem ≠ [] ∧ ∃ n, n ≠ lowCell (dataAddress 255) ∧ n ≠ highCell (dataAddress 255) :=
  ⟨State.reset.memWrite 255 0x1234, by decide, by decide, 0, by decide⟩
theorem witness_StoresArePlainArrays :
    (∃ m : Memory, m.wf ∧ m ≠ []) ∧ (255 : Byte) ≠ 0 ∧ (∃ s : State, s.dmem.wf ∧ s.dmem ≠ []) ∧
      ∃ s t, step s = .next t :=
  ⟨⟨[(511, 1)], by decide⟩, by decide, ⟨State.reset.memWrite 255 0x1234, by decide⟩, State.reset, _, rfl⟩

/-- Three steps of the zeroed store, none of them a ST to the address. -/
theorem witness_DataWordKeepsItsValueUntilStored :
    ∃ s : State, s.memRead 255 ≠ 0 ∧
      ∀ k, k < 3 → ∀ a w, (s.runFor k).iFetch = some w → decode w ≠ .st a 255 := by
  refine ⟨State.reset.memWrite 255 0x1234, by decide, fun k hk a w hw => ?_⟩
  have h0 : ∀ k : Fin 3, ((State.reset.memWrite 255 0x1234).runFor k).iFetch = some 0 := by decide
  rw [h0 ⟨k, hk⟩] at hw
  cases hw
  exact fun h => by cases (show Instr.mov 0 0 = Instr.st a 255 from h)
theorem witness_CanonicalStoresAreTheirWords :
    ∃ m m' : Memory, m.wf ∧ m'.wf ∧ m ≠ [] ∧ ∀ a, m.readWord a = m'.readWord a :=
  ⟨[(511, 1)], [(511, 1)], by decide, by decide, by decide, fun _ => rfl⟩
theorem witness_UnassignedWordOnlyAdvancesPc :
    16 ≤ (16 : Opcode).toNat ∧ ∃ s : State, s.run = .running ∧ s.pc.toNat ≤ 255 ∧
      s.imem.readWord (s.pc.setWidth 8) = 0x8000 ∧ (0x8000 : Word).getLsbD 15 = true :=
  ⟨by decide, probe 255 false [] 0x8000, by decide⟩
theorem witness_HaltedRunIsFinal :
    ∃ s : State, s.run = .running ∧ s.pc.toNat = (255 : Byte).toNat ∧ decode (s.imem.readWord 255) = .hlt :=
  ⟨probe 255 false [] 0x7FFF, by decide⟩
theorem witness_RunStateMovesAsTheTableSays :
    (∃ s : State, s.run = .running ∧ s.pc.toNat = 255 ∧
        opc (s.imem.readWord (s.pc.setWidth 8)) ≠ opcodeOf .hlt) ∧
      (∃ s : State, s.run = .running ∧ s.pc.toNat = 255 ∧
        opc (s.imem.readWord (s.pc.setWidth 8)) = opcodeOf .hlt) ∧
      (∃ s : State, s.run = .running ∧ s.pc.toNat = 256) ∧
      (∃ s : State, s.run = .halted) ∧ ∃ s : State, s.run = .faulted :=
  ⟨⟨probe 255 false [] 0x0000, by decide⟩, ⟨probe 255 false [] 0x7800, by decide⟩,
    ⟨State.reset.setPc 256, by decide⟩, ⟨State.reset.setRun .halted, rfl⟩, ⟨State.reset.setRun .faulted, rfl⟩⟩
theorem witness_FetchFaultIsPreciseAndFinal : ∃ s : State, s.run = .running ∧ 255 < s.pc.toNat :=
  ⟨State.reset.setPc 256, by decide⟩
theorem witness_ExecuteNeverFails :
    (∃ s : State, s.run = .running ∧ 255 < s.pc.toNat) ∧ ∃ s : State, s.run = .running ∧ s.pc.toNat = 255 :=
  ⟨⟨State.reset.setPc 256, by decide⟩, ⟨State.reset.setPc 255, by decide⟩⟩

/-- For each clause of the flag's rule: a CMP of equal and of unequal registers, and an instruction that is
neither CMP nor JE. -/
theorem witness_FlagIsWrittenByCmpAndReadByJe :
    (∃ s t, exec (.cmp 2 3) s = .next t ∧ s.reg 2 = s.reg 3) ∧
      (∃ s t, exec (.cmp 2 3) s = .next t ∧ s.reg 2 ≠ s.reg 3) ∧
      ∃ s t, exec (.add 2 1) s = .next t ∧ (∀ a b, Instr.add 2 1 ≠ .cmp a b) ∧ ∀ k, Instr.add 2 1 ≠ .je k :=
  ⟨⟨State.reset, _, rfl, by decide⟩, ⟨State.reset.setReg 2 1, _, rfl, by decide⟩,
    State.reset, _, rfl, fun _ _ => Instr.noConfusion, fun _ => Instr.noConfusion⟩
theorem witness_PcIsNeverAnOperand :
    ∃ s t, exec (.je 255) s = .next t ∧ (∀ k, Instr.je 255 ≠ .jmp k) ∧
      ∀ k, Instr.je 255 = .je k → s.flag = false :=
  ⟨State.reset, _, rfl, fun _ => Instr.noConfusion, fun _ _ => rfl⟩
theorem witness_OnlyTheListedRegistersMatter :
    ∃ s t u : State, exec (.mov 7 0) s = .next t ∧ regWritten (.mov 7 0) ≠ some 6 ∧ u ≠ s ∧
      (∀ r ∈ regsRead (.mov 7 0), u.reg r = s.reg r) ∧ u.flag = s.flag ∧ u.pc = s.pc ∧ u.run = s.run ∧
      u.imem = s.imem ∧ u.dmem = s.dmem :=
  ⟨State.reset, _, State.reset.setReg 6 1, rfl, by decide⟩
theorem witness_DataRequestAccountsForEveryAccess :
    (∃ s t, exec (.st 7 255) s = .next t ∧ dataRequest (.st 7 255) s = .write 255 0) ∧
      ∃ s : State, dataRequest (.ld 7 255) s = .read 255 := ⟨⟨State.reset, _, rfl, by decide⟩, State.reset, rfl⟩
theorem witness_OnlyLoadObservesTheDataStore :
    ∃ s t, exec (.st 7 255) s = .next t ∧ ∀ a addr, Instr.st 7 255 ≠ .ld a addr :=
  ⟨State.reset, _, rfl, fun _ _ => Instr.noConfusion⟩
theorem witness_FetchRequestIsPcWhileRunning :
    (∃ s : State, s.run = .running ∧ s.fetchResponse = some 0x7800) ∧
      (∃ s : State, s.run = .running ∧ s.fetchResponse = none) ∧ ∃ s : State, s.run ≠ .running :=
  ⟨⟨probe 255 false [] 0x7800, by decide⟩, ⟨State.reset.setPc 256, by decide⟩,
    ⟨State.reset.setRun .halted, by decide⟩⟩
theorem witness_TraceHasOneRecordPerInstruction :
    (∃ s t r, step s = .next t ∧ s.traceRecord = some r ∧ r.w = 0x7800) ∧
      ∃ s t, step s = .next t ∧ s.traceRecord = none :=
  ⟨⟨probe 255 false [] 0x7800, _, ⟨255, 0x7800, 0, 0, 0, 0⟩, rfl, by decide⟩,
    State.reset.setPc 256, _, rfl, by decide⟩
theorem witness_LaunchStateHoldsTheProgram :
    (List.replicate 256 (0x7800 : Word)).length ≤ 256 ∧ 256 < (List.replicate 257 (0x7800 : Word)).length := by
  rw [List.length_replicate, List.length_replicate]; decide
theorem witness_FinalReportIsMadeWhenHalted :
    (State.reset.setRun .halted).run = .halted ∧ State.reset.run ≠ .halted := by decide
theorem witness_EveryWordIsExactlyOneInstruction :
    opc 0x7800 = opcodeOf .hlt ∧ ¬(opc 0x8000).toNat < 16 := by decide

end Sys2Proof.Tests
end

/-! PROOFS. The state of spec/10_state.md: its value at reset (R29) and the rule of the flag (R21). -/

namespace Sys2Proof.Machine

/-! ## The reset state (R29) -/

/-- Every general register is created zero. -/
@[simp] theorem State.reg_reset (r : RegIx) : State.reset.reg r = 0 := by
  simp [State.reg, State.reset]

/-- A store with nothing listed reads 0 in every cell (R17). -/
@[simp] theorem Memory.readByte_nil (n : Nat) : Memory.readByte [] n = 0 := rfl

/-- The data store is created with nothing listed. -/
@[simp] theorem State.memRead_reset (a : Byte) : State.reset.memRead a = 0 := Memory.readWord_nil a

/-- Settles O12: the registers one by one, and the two stores as stores with nothing listed. -/
theorem resetIsAllZeroAndRunning : Obligations.ResetIsAllZeroAndRunning :=
  ⟨State.reg_reset, rfl, rfl, rfl, Memory.readWord_nil, State.memRead_reset, Memory.readByte_nil,
    Memory.readByte_nil⟩

/-! ## The flag (R21) -/

/-- Writing back the flag's own value is no change. -/
@[simp] theorem State.setFlag_flag (s : State) : s.setFlag s.flag = s := rfl

/-- CMP sets the flag exactly when its registers are equal (R90). -/
theorem exec_cmp_flag {a b : RegIx} {s t : State} (h : exec (.cmp a b) s = .next t) :
    t.flag = (s.reg a == s.reg b) := by
  rw [exec_cmp] at h
  obtain rfl := Host.Outcome.next.inj h
  exact State.flag_setFlag s _

/-- CMP overwrites the flag without reading it: it answers the same state whatever the flag was. -/
theorem exec_cmp_setFlag (a b : RegIx) (s : State) (f : Bool) :
    exec (.cmp a b) (s.setFlag f) = exec (.cmp a b) s := rfl

/-- An instruction that is neither CMP nor JE commutes with any change of the flag: it reads no flag and
writes none. -/
theorem exec_setFlag {i : Instr} {s t : State} (f : Bool) (hcmp : ∀ a b, i ≠ .cmp a b)
    (hje : ∀ k, i ≠ .je k) (h : exec i s = .next t) :
    exec i (s.setFlag f) = .next (t.setFlag f) := by
  cases i with
  | cmp a b => exact absurd rfl (hcmp a b)
  | je k => exact absurd rfl (hje k)
  | _ =>
    obtain rfl := Host.Outcome.next.inj h
    rfl

/-- JE reads the flag but keeps it, on both branches (R91). -/
theorem exec_je_flag {k : Byte} {s t : State} (h : exec (.je k) s = .next t) : t.flag = s.flag := by
  rw [exec_je] at h
  obtain rfl := Host.Outcome.next.inj h
  split
  · exact State.flag_setPc s _
  · rfl

/-- Only CMP writes the flag. For an instruction other than JE this follows from `exec_setFlag` with the
flag's own value, which changes nothing before the instruction and so nothing after it. -/
theorem exec_flag {i : Instr} {s t : State} (hcmp : ∀ a b, i ≠ .cmp a b) (h : exec i s = .next t) :
    t.flag = s.flag := by
  by_cases hje : ∃ k, i = .je k
  · obtain ⟨k, rfl⟩ := hje
    exact exec_je_flag h
  · have hset := exec_setFlag s.flag hcmp (not_exists.mp hje) h
    rw [State.setFlag_flag, h] at hset
    rw [Host.Outcome.next.inj hset, State.flag_setFlag]

/-- Settles O40: CMP forgets the old flag, JE is the two evaluations of its branch, and every other
instruction commutes with a change of the flag. -/
theorem flagIsWrittenByCmpAndReadByJe : Obligations.FlagIsWrittenByCmpAndReadByJe := by
  refine ⟨fun a b s t h => ?cmp, fun i s t hcmp h => exec_flag hcmp h, fun i s t f hje h => ?noRead,
    fun k s => ⟨exec_je k _, exec_je k _⟩, rfl⟩
  case cmp =>
    rw [exec_cmp_flag h]
    exact ⟨beq_iff_eq.mpr, beq_false_of_ne⟩
  case noRead =>
    by_cases hcmp : ∃ a b, i = .cmp a b
    · obtain ⟨a, b, rfl⟩ := hcmp
      exact ⟨t, (exec_cmp_setFlag a b s f).trans h, rfl, rfl, rfl, rfl, rfl, fun _ => rfl⟩
    · have hne : ∀ a b, i ≠ .cmp a b := fun a b e => hcmp ⟨a, b, e⟩
      exact ⟨t.setFlag f, exec_setFlag f hne hje h, rfl, rfl, rfl, rfl, rfl, fun e => absurd e hcmp⟩

end Sys2Proof.Machine

/-! PROOFS. The stores of spec/20_memory.md: two plain arrays without side effects (R36). -/

namespace Sys2Proof.Machine

/-- No step writes the instruction store, neither an executed instruction nor the fetch fault (R25). -/
theorem step_imem {s t : State} (h : step s = .next t) : t.imem = s.imem := by
  obtain ⟨-, ⟨w, -, hexec⟩ | ⟨-, rfl⟩⟩ := step_cases h
  · exact (exec_imem hexec).trans s.imem_advance
  · exact s.imem_setRun .faulted

/-- LD answers the data word at its address in rA (R94). -/
theorem exec_ld_reg {a : RegIx} {addr : Byte} {s t : State} (h : exec (.ld a addr) s = .next t) :
    t.reg a = s.memRead addr := by
  obtain rfl := Host.Outcome.next.inj h
  exact State.reg_setReg_self s a _

/-- LD leaves the data store as it is, whole (R36, R94). -/
theorem exec_ld_dmem {a : RegIx} {addr : Byte} {s t : State} (h : exec (.ld a addr) s = .next t) :
    t.dmem = s.dmem := by
  obtain rfl := Host.Outcome.next.inj h
  exact State.dmem_setReg s a _

/-- Data words are read from the data store only. -/
theorem State.memRead_eq_of_dmem {s t : State} (h : s.dmem = t.dmem) (addr : Byte) :
    s.memRead addr = t.memRead addr :=
  congrArg (Memory.readWord · addr) h

/-- After ST, the data word at its address is the register stored (R36, R95). -/
theorem exec_st_memRead {a : RegIx} {addr : Byte} {s t : State} (hs : s.dmem.wf)
    (h : exec (.st a addr) s = .next t) : t.memRead addr = s.reg a := by
  obtain rfl := Host.Outcome.next.inj h
  exact Memory.readWord_writeWord_self hs addr _

/-- Settles O30: a word write is seen at its own address and nowhere else; a LD leaves the data store, so
the next LD reads the same word; a ST puts its register at the address, where the next LD finds it. -/
theorem storesArePlainArrays : Obligations.StoresArePlainArrays := by
  refine ⟨fun m a b v hm => ⟨Memory.readWord_writeWord_self hm a v, Memory.readWord_writeWord_of_ne m v⟩,
    fun a b addr s => ?loadTwice, fun a b addr s hs => ?loadStored,
    fun s t h n => congrArg (Memory.readByte · n) (step_imem h)⟩
  case loadTwice =>
    have hfirst := exec_ld a addr s
    have hsecond := exec_ld b addr (s.setReg a (s.memRead addr))
    have hkept := exec_ld_dmem hfirst
    refine ⟨_, _, hfirst, fun n => congrArg (Memory.readByte · n) hkept, hsecond, ?_⟩
    rw [exec_ld_reg hsecond, exec_ld_reg hfirst, State.memRead_eq_of_dmem hkept]
  case loadStored =>
    have hstore := exec_st a addr s
    have hload := exec_ld b addr (s.memWrite addr (s.reg a))
    exact ⟨_, _, hstore, hload, (exec_ld_reg hload).trans (exec_st_memRead hs hstore)⟩

end Sys2Proof.Machine

/-! PROOFS. The encoding of spec/30_encoding.md: decode undoes encode (R63), and every word is exactly one
instruction (R54). -/

namespace Sys2Proof.Machine

open Sys2Proof.Laws.OpcodeField (encRR_opc encR_opc encRI_opc encJ_opc zeros_opc)

/-! ## Decoding the encoder's words (R63) -/

/-- The format of LD and ST lays its fields out as that of LDL and LDH does (R55). -/
theorem opc_encRM (op : Op) (a : RegIx) (addr : Byte) : opc (encRM op a addr) = opcodeOf op :=
  encRI_opc op a addr

/-- The decoder reads the opcode of each format's word first, which selects the operation, and then the
fields the format holds. -/
theorem decode_encode_of_wf {i : Instr} (h : i.wf = true) : decode (encode i) = i := by
  cases i with
  | mov a b | add a b | sub a b | and a b | or a b | cmp a b =>
    rw [encode, decode_of_opcode (encRR_opc _ a b), instrOf, ra_encRR, rb_encRR]
  | sl a | sr a | sra a => rw [encode, decode_of_opcode (encR_opc _ a), instrOf, ra_encR]
  | ldl a v | ldh a v => rw [encode, decode_of_opcode (encRI_opc _ a v), instrOf, ra_encRI, imm_encRI]
  | je k | jmp k => rw [encode, decode_of_opcode (encJ_opc _ k), instrOf, imm_encJ]
  | ld a addr | st a addr =>
    rw [encode, decode_of_opcode (opc_encRM _ a addr), instrOf, ra_encRM, imm_encRM]
  | hlt => exact decode_eq_hlt.mpr (zeros_opc _)
  | unassigned c =>
    have hc : opc (encode (.unassigned c)) = c := zeros_opc c
    have hge : Config.numOps ≤ c.toNat := of_decide_eq_true h
    rw [decode_of_unassigned (by rwa [hc]), hc]

/-- The 16 operations are well-formed with any operands; only an unassigned opcode has a check to pass. -/
theorem wf_of_ne_unassigned {i : Instr} (h : ∀ c, i ≠ .unassigned c) : i.wf = true := by
  cases i with
  | unassigned c => exact absurd rfl (h c)
  | _ => rfl

/-- Settles O2: an operation is well-formed, and decode undoes encode on well-formed instructions. -/
theorem decodeOfEncodeGivesTheInstruction : Obligations.DecodeOfEncodeGivesTheInstruction :=
  fun _ h => decode_encode_of_wf (wf_of_ne_unassigned h)

/-! ## Every word is an instruction (R54) -/

/-- A value above the table is the value of no operation (R59). -/
theorem ne_opcodeOf_of_numOps_le {c : Opcode} (h : Config.numOps ≤ c.toNat) (op : Op) :
    c ≠ opcodeOf op := by
  rintro rfl
  exact absurd (opcodeOf_lt op) h.not_gt

/-- No instruction stops the machine: each meaning answers a next state (R76). -/
theorem exec_next (i : Instr) (s : State) : ∃ t, exec i s = .next t := by
  cases i <;> exact ⟨_, rfl⟩

/-- Settles O6: the opcode is in the table, whose values are distinct and below 16, or it is above the
table. -/
theorem everyWordIsExactlyOneInstruction : Obligations.EveryWordIsExactlyOneInstruction := by
  intro w
  refine ⟨?oneInstruction, wf_decode w, exec_next (decode w)⟩
  obtain ⟨op, hop, hdecode⟩ | ⟨hge, hdecode⟩ := decode_cases w
  · have honly : ∀ op', opc w = opcodeOf op' → op' = op := fun _ h =>
      opcodeOf_injective (h.symm.trans hop.symm)
    have hlt : (opc w).toNat < Config.numOps := hop ▸ opcodeOf_lt op
    exact .inl ⟨⟨op, hop.symm, hdecode, honly⟩, hlt⟩
  · exact .inr ⟨ne_opcodeOf_of_numOps_le hge, hge, hdecode⟩

end Sys2Proof.Machine

/-! PROOFS. What a whole run keeps (spec/70_reset_and_hazards.md): nothing writes the instruction store (R123). -/

namespace Sys2Proof.Machine

/-- A run stays in a state from which no step leads to a next state (R73). -/
theorem State.runFor_of_no_next {s : State} (h : ∀ t, step s ≠ .next t) (n : Nat) : s.runFor n = s := by
  cases n with
  | zero => exact s.runFor_zero
  | succ n =>
    cases hs : step s with
    | next t => exact absurd hs (h t)
    | fault _ | refused _ => simp [State.runFor, hs]

/-- What every step keeps, every run keeps. -/
theorem State.runFor_keeps {P : State → Prop} (hstep : ∀ {s t : State}, step s = .next t → P s → P t)
    (n : Nat) {s : State} (hs : P s) : P (s.runFor n) := by
  induction n generalizing s with
  | zero => exact hs
  | succ n ih =>
    by_cases hnext : ∃ t, step s = .next t
    · obtain ⟨t, ht⟩ := hnext
      rw [State.runFor_succ_of_next ht]
      exact ih (hstep ht hs)
    · rwa [State.runFor_of_no_next (not_exists.mp hnext)]

/-- Settles O39: having the first state's instruction store is kept by every step (R25), so by every run. -/
theorem instructionStoreIsNeverWritten : Obligations.InstructionStoreIsNeverWritten :=
  fun n s => State.runFor_keeps (P := fun t => t.imem = s.imem) (fun h hs => (step_imem h).trans hs) n rfl

end Sys2Proof.Machine

/-! PROOFS. What an instruction and a step do to each part of the state (spec/40_execution_cycle.md): the facts
the statements below are assembled from. -/

namespace Sys2Proof.Machine

/-! ## The frame of a register write -/

/-- A register write changes nothing but its register. -/
theorem onlyRegister_setReg (a : RegIx) (v : Word) (s : State) : OnlyRegister a s (s.setReg a v) :=
  ⟨fun _ hr => s.reg_setReg_of_ne v hr, rfl, rfl, rfl, fun _ => rfl, fun _ => rfl⟩

/-- Writing back a register's own value changes no register. -/
theorem sameRegisters_setReg_reg (a : RegIx) (s : State) : SameRegisters s (s.setReg a (s.reg a)) := by
  intro r
  rw [State.reg_setReg]
  split
  · subst r; rfl
  · rfl

/-- Writes of one register, one after another, are still a change of that register only. -/
theorem OnlyRegister.trans {a : RegIx} {s t u : State} (h : OnlyRegister a s t) (k : OnlyRegister a t u) :
    OnlyRegister a s u := by
  obtain ⟨hreg, hpc, hflag, hrun, himem, hdmem⟩ := h
  obtain ⟨kreg, kpc, kflag, krun, kimem, kdmem⟩ := k
  exact ⟨fun r hr => (kreg r hr).trans (hreg r hr), kpc.trans hpc, kflag.trans hflag, krun.trans hrun,
    fun n => (kimem n).trans (himem n), fun n => (kdmem n).trans (hdmem n)⟩

/-! ## The data store -/

/-- Only ST writes the data store (R26). -/
theorem exec_dmem {i : Instr} {s t : State} (hst : ∀ a addr, i ≠ .st a addr) (h : exec i s = .next t) :
    t.dmem = s.dmem := by
  rcases exec_cases h with ⟨_, _, rfl⟩ | ⟨_, rfl⟩ | ⟨_, rfl⟩ | ⟨a, addr, rfl, -⟩ | ⟨-, rfl⟩ | rfl
  case inr.inr.inr.inl => exact absurd rfl (hst a addr)
  all_goals rfl

/-- ST writes the one word of its request (R95). -/
theorem exec_st_dmem {a : RegIx} {addr : Byte} {s t : State} (h : exec (.st a addr) s = .next t) :
    t.dmem = s.dmem.writeWord addr (s.reg a) := by
  obtain rfl := Host.Outcome.next.inj h
  exact State.dmem_memWrite s addr _

/-- Every instruction keeps the canonical form of the data store. -/
theorem exec_dmem_wf {i : Instr} {s t : State} (hs : s.dmem.wf) (h : exec i s = .next t) : t.dmem.wf := by
  by_cases hst : ∃ a addr, i = .st a addr
  · obtain ⟨a, addr, rfl⟩ := hst
    rw [exec_st_dmem h]
    exact Memory.wf_writeWord hs addr _
  · rwa [exec_dmem (fun a addr e => hst ⟨a, addr, e⟩) h]

/-! ## The program counter and the run state -/

/-- After an instruction pc is the advanced pc or the zero-extended target of a branch (R20). -/
theorem exec_pc_cases {i : Instr} {s t : State} (h : exec i s = .next t) :
    t.pc = s.pc ∨ ∃ k : Byte, t.pc = zext16 k := by
  rcases exec_cases h with ⟨_, _, rfl⟩ | ⟨_, rfl⟩ | ⟨k, rfl⟩ | ⟨_, _, -, rfl⟩ | ⟨-, rfl⟩ | rfl
  case inr.inr.inl => exact .inr ⟨k, rfl⟩
  all_goals exact .inl rfl

/-- An instruction keeps pc at most 256: a branch target is at most 255. -/
theorem exec_pc_le {i : Instr} {s t : State} (hs : s.pc.toNat ≤ 256) (h : exec i s = .next t) :
    t.pc.toNat ≤ 256 := by
  obtain hpc | ⟨k, hpc⟩ := exec_pc_cases h
  · rwa [hpc]
  · have := k.isLt
    rw [hpc, toNat_zext16]; omega

/-- An instruction that ends a run of a RUNNING machine is HLT, and halting is all it does (R96). -/
theorem exec_eq_hlt {i : Instr} {s t : State} (hs : s.run = .running) (h : exec i s = .next t)
    (ht : t.run ≠ .running) : i = .hlt ∧ t = s.setRun .halted := by
  have hi : i = .hlt := by
    by_contra hi
    exact ht ((exec_run h hi).trans hs)
  subst hi
  exact ⟨rfl, (Host.Outcome.next.inj h).symm⟩

/-! ## The step from RUNNING -/

/-- With pc inside the store the fetch answers the word at pc (R67). -/
theorem State.iFetch_of_le {s : State} (h : s.pc.toNat ≤ 255) :
    s.iFetch = some (s.imem.readWord (s.pc.setWidth 8)) :=
  State.iFetch_eq_some.mpr ⟨Nat.lt_succ_of_le h, rfl⟩

/-- With pc above 255 there is no word to fetch (R67). -/
theorem State.iFetch_of_gt {s : State} (h : 255 < s.pc.toNat) : s.iFetch = none :=
  State.iFetch_eq_none.mpr h

/-- With pc inside the store a step executes the word at pc on the advanced state (R72). -/
theorem step_of_pc_le {s : State} (hr : s.run = .running) (h : s.pc.toNat ≤ 255) :
    step s = exec (decode (s.imem.readWord (s.pc.setWidth 8))) s.advance :=
  step_of_iFetch_eq_some hr (State.iFetch_of_le h)

/-- With pc above 255 a step raises the fetch fault (R99). -/
theorem step_of_pc_gt {s : State} (hr : s.run = .running) (h : 255 < s.pc.toNat) :
    step s = .next s.raiseFetchOutOfRange :=
  step_of_iFetch_eq_none hr (State.iFetch_of_gt h)

/-- A word address that pc holds is pc's low eight bits. -/
theorem setWidth_eq_of_toNat_eq {p : Word} {k : Byte} (h : p.toNat = k.toNat) : p.setWidth 8 = k := by
  apply BitVec.eq_of_toNat_eq
  have := k.isLt
  rw [BitVec.toNat_setWidth, h]; omega

/-- The step from an address given as a byte. -/
theorem step_of_pc_eq {s : State} {p : Byte} (hr : s.run = .running) (h : s.pc.toNat = p.toNat) :
    step s = exec (decode (s.imem.readWord p)) s.advance := by
  have := p.isLt
  rw [step_of_pc_le hr (by omega), setWidth_eq_of_toNat_eq h]

/-- From RUNNING a step always answers a next state (R76). -/
theorem step_next {s : State} (hr : s.run = .running) : ∃ t, step s = .next t := by
  cases hf : s.iFetch with
  | none => exact ⟨_, step_of_iFetch_eq_none hr hf⟩
  | some w =>
    rw [step_of_iFetch_eq_some hr hf]
    exact exec_next _ _

/-- A step ends in FAULTED exactly when it had no word to fetch: no instruction faults (R76, R99). -/
theorem step_run_eq_faulted {s t : State} (h : step s = .next t) : t.run = .faulted ↔ s.iFetch = none := by
  obtain ⟨hr, ⟨w, hf, hexec⟩ | ⟨hf, rfl⟩⟩ := step_cases h
  · have hne : t.run ≠ .faulted := by
      intro ht
      obtain ⟨-, rfl⟩ := exec_eq_hlt (s := s.advance) hr hexec (by rw [ht]; decide)
      cases ht
    simp [hf, hne]
  · exact ⟨fun _ => hf, fun _ => rfl⟩

end Sys2Proof.Machine

/-! PROOFS. The invariant of the machine (spec/10_state.md, spec/40_execution_cycle.md): it holds after reset
and every step keeps it. -/

namespace Sys2Proof.Machine

/-- A state in RUNNING meets the invariant by its stores and its pc: the other clauses are about stopped
states. -/
theorem State.Inv.of_running {s : State} (hr : s.run = .running) (himem : s.imem.wf) (hdmem : s.dmem.wf)
    (hpc : s.pc.toNat ≤ 256) : s.Inv :=
  ⟨himem, hdmem, hpc, fun h => by simp [hr] at h, fun h => by simp [hr] at h⟩

/-- Settles O13: both stores list nothing and pc is 0. -/
theorem invariantHoldsAtReset : Obligations.InvariantHoldsAtReset :=
  State.Inv.of_running rfl Memory.wf_nil Memory.wf_nil (Nat.zero_le _)

/-- The HLT fetched at pc is the one that the invariant asks for behind the advanced pc (R75). -/
theorem State.Inv.setRun_halted {s : State} {w : Word} (hs : s.Inv) (hf : s.iFetch = some w)
    (hw : decode w = .hlt) : (s.advance.setRun .halted).Inv := by
  obtain ⟨hlt, rfl⟩ := State.iFetch_eq_some.mp hf
  have hpc : s.advance.pc.toNat = s.pc.toNat + 1 := toNat_pc_advance hlt
  have hbyte : (s.pc.setWidth 8).toNat = s.pc.toNat := by
    rw [BitVec.toNat_setWidth]; exact Nat.mod_eq_of_lt hlt
  exact ⟨hs.imem_wf, hs.dmem_wf, hpc ▸ hlt, fun _ => ⟨s.pc.setWidth 8, by rw [hbyte]; exact hpc, hw⟩, nofun⟩

/-- An executed instruction keeps the invariant: it goes on in RUNNING, or it is a HLT. -/
theorem State.Inv.exec {s t : State} {w : Word} (hs : s.Inv) (hr : s.run = .running)
    (hf : s.iFetch = some w) (h : exec (decode w) s.advance = .next t) : t.Inv := by
  by_cases ht : t.run = .running
  · have hpc : s.advance.pc.toNat ≤ 256 :=
      toNat_pc_advance (State.iFetch_eq_some.mp hf).1 ▸ (State.iFetch_eq_some.mp hf).1
    exact .of_running ht (exec_imem h ▸ hs.imem_wf) (exec_dmem_wf (s := s.advance) hs.dmem_wf h)
      (exec_pc_le hpc h)
  · obtain ⟨hw, rfl⟩ := exec_eq_hlt (s := s.advance) hr h ht
    exact hs.setRun_halted hf hw

/-- The fetch fault keeps the invariant: a pc of at most 256 that is outside the store is 256 (R99). -/
theorem State.Inv.raiseFetchOutOfRange {s : State} (hs : s.Inv) (hf : s.iFetch = none) :
    s.raiseFetchOutOfRange.Inv :=
  ⟨hs.imem_wf, hs.dmem_wf, hs.pc_le, nofun, fun _ => le_antisymm hs.pc_le (State.iFetch_eq_none.mp hf)⟩

/-- Settles O14: a step is an executed instruction or the fetch fault, and each keeps the invariant. -/
theorem stepKeepsTheInvariant : Obligations.StepKeepsTheInvariant := by
  intro s t hs h
  obtain ⟨hr, ⟨w, hf, hexec⟩ | ⟨hf, rfl⟩⟩ := step_cases h
  · exact hs.exec hr hf hexec
  · exact hs.raiseFetchOutOfRange hf

end Sys2Proof.Machine

/-! PROOFS. The encoding of spec/30_encoding.md: what the formats use of a word (R55, R56), the encoder's words
as numbers (R61), and the assembler's refusals (R62). -/

namespace Sys2Proof.Machine

/-- Settles O1: each word is written from its pattern, and the decoder evaluates on it. -/
theorem wordsOfTheSpecDecode : Obligations.WordsOfTheSpecDecode := by
  refine ⟨?_, ?_, ?_, ?_, ?_, ?_, ?_, ?_, ?_, ?_⟩ <;> decide

/-- Settles O3: an unassigned opcode of value 16 to 31 is well-formed, and decode undoes encode on it. -/
theorem decodeOfEncodeUnassigned : Obligations.DecodeOfEncodeUnassigned :=
  fun _ h => decode_encode_of_wf h

/-! ## The used bits of a word (R55) -/

/-- A word is its opcode field, its field rA and its low byte (R50, R51, R53). -/
theorem opc_append_ra_append_imm (w : Word) : opc w ++ ra w ++ imm w = w := by
  have h₁ := toNat_opc w; have h₂ := toNat_ra w; have h₃ := toNat_imm w; have := w.isLt
  apply BitVec.eq_of_toNat_eq
  change (opc w ++ ra w ++ imm w : Word).toNat = w.toNat
  rw [BitVec.toNat_append, BitVec.toNat_append, ← Nat.shiftLeft_add_eq_or_of_lt (imm w).isLt,
    ← Nat.shiftLeft_add_eq_or_of_lt (ra w).isLt, Nat.shiftLeft_eq, Nat.shiftLeft_eq]
  omega

/-- The low byte of a word is its field rB and five bits more (R52). -/
theorem rb_append_low (w : Word) : rb w ++ w.extractLsb' 0 5 = imm w := by
  apply BitVec.eq_of_getLsbD_eq
  intro i hi
  rw [getLsbD_imm w hi, BitVec.getLsbD_append]
  split
  · simp [*]
  · rw [getLsbD_rb w (by omega), Nat.add_sub_cancel' (by omega)]

/-- Masking a word masks its three fields. -/
theorem and_fields (w : Word) (c : Opcode) (a : RegIx) (v : Byte) :
    w &&& (c ++ a ++ v) = (opc w &&& c) ++ (ra w &&& a) ++ (imm w &&& v) := by
  conv_lhs => rw [← opc_append_ra_append_imm w]
  rw [BitVec.and_append, BitVec.and_append]

/-- The byte of format RR holds rB, and five bits that the format does not use. -/
theorem imm_and_rb_mask (w : Word) : imm w &&& 0xE0#8 = rb w ++ (0#5 : BitVec 5) := by
  rw [← rb_append_low w, show 0xE0#8 = BitVec.allOnes 3 ++ (0#5 : BitVec 5) from rfl, BitVec.and_append,
    BitVec.and_allOnes, BitVec.and_zero]

/-! Each format's word, encoded again from the fields that the word holds. -/

section
variable {op : Op} {w : Word} (h : opcodeOf op = opc w)
include h

theorem encRR_fields : encRR op (ra w) (rb w) = w &&& 0xFFE0 := by
  have hw := and_fields w (BitVec.allOnes 5) (BitVec.allOnes 3) 0xE0#8
  rw [imm_and_rb_mask, BitVec.and_allOnes, BitVec.and_allOnes] at hw
  rw [encRR, h, BitVec.append_assoc]
  exact hw.symm

theorem encR_fields : encR op (ra w) = w &&& 0xFF00 := by
  have hw := and_fields w (BitVec.allOnes 5) (BitVec.allOnes 3) 0#8
  rw [BitVec.and_allOnes, BitVec.and_allOnes, BitVec.and_zero] at hw
  rw [encR, h]
  exact hw.symm

theorem encRI_fields : encRI op (ra w) (imm w) = w &&& 0xFFFF := by
  rw [encRI, h, opc_append_ra_append_imm]
  exact BitVec.and_allOnes.symm

theorem encJ_fields : encJ op (imm w) = w &&& 0xF8FF := by
  have hw := and_fields w (BitVec.allOnes 5) 0#3 (BitVec.allOnes 8)
  rw [BitVec.and_allOnes, BitVec.and_allOnes, BitVec.and_zero] at hw
  rw [encJ, h]
  exact hw.symm

end

theorem opc_append_zeros (w : Word) : opc w ++ (0#11 : BitVec 11) = w &&& 0xF800 := by
  have hw := and_fields w (BitVec.allOnes 5) 0#3 0#8
  rw [BitVec.and_allOnes, BitVec.and_zero, BitVec.and_zero] at hw
  rw [show (0#11 : BitVec 11) = (0#3 : BitVec 3) ++ (0#8 : BitVec 8) from rfl, BitVec.append_assoc']
  exact hw.symm

/-- Settles O4: the decoder reads the fields of the word's format and the encoder lays them out again, with
zeros for the bits of no field. -/
theorem encodeOfDecodeClearsUnusedBits : Obligations.EncodeOfDecodeClearsUnusedBits := by
  intro w
  obtain ⟨op, hop, hdecode⟩ | ⟨-, hdecode⟩ := decode_cases w
  · rw [hdecode]
    cases op with
    | mov | add | sub | and | or | cmp => exact encRR_fields hop
    | sl | sr | sra => exact encR_fields hop
    | ldl | ldh | ld | st => exact encRI_fields hop
    | je | jmp => exact encJ_fields hop
    | hlt => exact (congrArg (· ++ (0#11 : BitVec 11)) hop).trans (opc_append_zeros w)
  · rw [hdecode]
    exact opc_append_zeros w

/-! ## The unused bits (R56) -/

/-- Every format uses the opcode field. -/
theorem opc_and_usedBits (w : Word) (i : Instr) : opc (w &&& i.usedBits) = opc w := by
  have hmask : opc i.usedBits = BitVec.allOnes 5 := by cases i <;> simp [Instr.usedBits, opc]
  rw [opc, BitVec.extractLsb'_and]
  change opc w &&& opc i.usedBits = opc w
  rw [hmask, BitVec.and_allOnes]

/-- The opcode alone gives the format, and so the used bits. -/
theorem usedBits_decode_of_opc_eq {v w : Word} (h : opc v = opc w) :
    (decode v).usedBits = (decode w).usedBits := by
  obtain ⟨op, hop, hw⟩ | ⟨hge, hw⟩ := decode_cases w
  · rw [decode_of_opcode (h.trans hop.symm), hw]
    cases op <;> rfl
  · rw [decode_of_unassigned (h ▸ hge), hw]
    rfl

/-- A word without its unused bits decodes to the same instruction: it is the encoder's word for it. -/
theorem decode_and_usedBits (w : Word) : decode (w &&& (decode w).usedBits) = decode w := by
  rw [← encodeOfDecodeClearsUnusedBits w]
  exact decode_encode_of_wf (wf_decode w)

/-- Settles O5: the opcode field is used in every format, so the two words have the same format, and without
its unused bits each decodes as before. -/
theorem unusedBitsHaveNoEffect : Obligations.UnusedBitsHaveNoEffect := by
  intro v w h
  have hopc : opc v = opc w := by
    rw [← opc_and_usedBits v (decode w), h, opc_and_usedBits]
  calc decode v = decode (v &&& (decode v).usedBits) := (decode_and_usedBits v).symm
    _ = decode (w &&& (decode w).usedBits) := by rw [usedBits_decode_of_opc_eq hopc, h]
    _ = decode w := decode_and_usedBits w

/-! ## The encoder's words as numbers (R61) -/

/-- Settles O7: a word laid out field after field is each field shifted by the width of those below it. -/
theorem encoderWordsByFormula : Obligations.EncoderWordsByFormula := by
  intro op a b v
  simp only [encRR, encR, encRI, encJ, encRM, encN, BitVec.toNat_append, BitVec.toNat_ofNat, Nat.zero_mod]
  simp only [Nat.shiftLeft_or_distrib, ← Nat.shiftLeft_add, Nat.or_zero, Nat.reduceAdd, and_self]

/-! ## The assembler's refusals (R62) -/

theorem checkReg_of_le {n : Nat} (h : n ≤ 7) : checkReg n = .ok (BitVec.ofNat 3 n) := if_pos h

theorem checkReg_of_not_le {n : Nat} (h : ¬n ≤ 7) : checkReg n = .error (.registerOutOfRange n) := if_neg h

theorem checkValue_of_le {n : Nat} (h : n ≤ 255) : checkValue n = .ok (BitVec.ofNat 8 n) := if_pos h

theorem checkValue_of_not_le {n : Nat} (h : ¬n ≤ 255) : checkValue n = .error (.valueOutOfRange n) := if_neg h

theorem asmRR_of_le (op : Op) {a b : Nat} (ha : a ≤ 7) (hb : b ≤ 7) :
    asmRR op a b = .ok (encRR op (BitVec.ofNat 3 a) (BitVec.ofNat 3 b)) := by
  rw [asmRR, checkReg_of_le ha, checkReg_of_le hb]

theorem asmRR_of_not_le (op : Op) {a b : Nat} (h : ¬(a ≤ 7 ∧ b ≤ 7)) : ∃ e, asmRR op a b = .error e := by
  by_cases ha : a ≤ 7
  · have hb : ¬b ≤ 7 := fun hb => h ⟨ha, hb⟩
    exact ⟨_, by rw [asmRR, checkReg_of_le ha, checkReg_of_not_le hb]⟩
  · exact ⟨_, by rw [asmRR, checkReg_of_not_le ha]⟩

theorem asmRI_of_le (op : Op) {a v : Nat} (ha : a ≤ 7) (hv : v ≤ 255) :
    asmRI op a v = .ok (encRI op (BitVec.ofNat 3 a) (BitVec.ofNat 8 v)) := by
  rw [asmRI, checkReg_of_le ha, checkValue_of_le hv]

theorem asmRI_of_not_le (op : Op) {a v : Nat} (h : ¬(a ≤ 7 ∧ v ≤ 255)) : ∃ e, asmRI op a v = .error e := by
  by_cases ha : a ≤ 7
  · have hv : ¬v ≤ 255 := fun hv => h ⟨ha, hv⟩
    exact ⟨_, by rw [asmRI, checkReg_of_le ha, checkValue_of_not_le hv]⟩
  · exact ⟨_, by rw [asmRI, checkReg_of_not_le ha]⟩

/-- Formats RI and RM take the same operands, a register and a byte, and lay them out alike (R61). -/
theorem asmRM_eq_asmRI (op : Op) (a addr : Nat) : asmRM op a addr = asmRI op a addr := rfl

/-- Settles O8: each operand is checked against the range of its field, and the encoder's word is answered
when every check passes. -/
theorem assemblerRefusesExactlyOutOfRange : Obligations.AssemblerRefusesExactlyOutOfRange := by
  intro op a b v
  rw [asmRM_eq_asmRI]
  refine ⟨⟨fun ⟨ha, hb⟩ => asmRR_of_le op ha hb, asmRR_of_not_le op⟩, ⟨fun ha => ?regOk, fun ha => ?regError⟩,
    ⟨fun ⟨ha, hv⟩ => asmRI_of_le op ha hv, asmRI_of_not_le op⟩, ⟨fun hv => ?targetOk, fun hv => ?targetError⟩,
    ⟨fun ⟨ha, hv⟩ => asmRI_of_le op ha hv, asmRI_of_not_le op⟩⟩
  case regOk => rw [asmR, checkReg_of_le ha]
  case regError => exact ⟨_, by rw [asmR, checkReg_of_not_le ha]⟩
  case targetOk => rw [asmJ, checkValue_of_le hv]
  case targetError => exact ⟨_, by rw [asmJ, checkValue_of_not_le hv]⟩

end Sys2Proof.Machine

/-! PROOFS. The operations on registers: spec/41_register_alu.md, spec/42_shift.md, spec/43_immediate.md. Each
answers one register write, so its frame is that of `onlyRegister_setReg`, and what is left is the value. -/

namespace Sys2Proof.Machine

/-! ## Register-register operations (R79 to R84) -/

/-- Settles O15: the value written is the other register's, which with rA = rB is the register's own. -/
theorem movCopiesOneRegister : Obligations.MovCopiesOneRegister := by
  intro a b s
  refine ⟨_, exec_mov a b s, s.reg_setReg_self a _, onlyRegister_setReg a _ s, ?_⟩
  rintro rfl
  exact sameRegisters_setReg_reg a s

/-- The sum of two words, as an integer, is exact modulo 2^16 (R80). -/
theorem toNat_add_eq_emod (x y : Word) : ((x + y).toNat : Int) = ((x.toNat : Int) + y.toNat) % 65536 := by
  rw [BitVec.toNat_add]
  omega

/-- The difference of two words, as an integer, is exact modulo 2^16 (R81). -/
theorem toNat_sub_eq_emod (x y : Word) : ((x - y).toNat : Int) = ((x.toNat : Int) - y.toNat) % 65536 := by
  have := x.isLt; have := y.isLt
  rw [BitVec.toNat_sub]
  omega

/-- Settles O16: the words' own sum and difference are exact modulo 2^16. -/
theorem addAndSubAreModulo65536 : Obligations.AddAndSubAreModulo65536 := by
  intro a b s
  refine ⟨⟨_, exec_add a b s, ?_, onlyRegister_setReg a _ s⟩, ⟨_, exec_sub a b s, ?_, onlyRegister_setReg a _ s⟩⟩
  · rw [State.reg_setReg_self, toNat_add_eq_emod]
  · rw [State.reg_setReg_self, toNat_sub_eq_emod]

/-- Settles O17: the words' own conjunction and disjunction are bit by bit. -/
theorem andAndOrAreBitwise : Obligations.AndAndOrAreBitwise := by
  intro a b s
  refine ⟨⟨_, exec_and a b s, fun n => ?_, onlyRegister_setReg a _ s⟩,
    ⟨_, exec_or a b s, fun n => ?_, onlyRegister_setReg a _ s⟩⟩
  · rw [State.reg_setReg_self, BitVec.getLsbD_and]
  · rw [State.reg_setReg_self, BitVec.getLsbD_or]

/-- Settles O18: both operands are the register's old value x, and x + x = 2x, x - x = 0, x & x = x | x = x. -/
theorem sameRegisterIsReadBeforeTheWrite : Obligations.SameRegisterIsReadBeforeTheWrite := by
  intro a s
  refine ⟨⟨_, exec_add a a s, ?add⟩, ⟨_, exec_sub a a s, ?sub⟩, ⟨_, exec_and a a s, ?and⟩, ⟨_, exec_or a a s, ?or⟩,
    ⟨_, exec_cmp a a s, ?cmp⟩⟩
  case add => rw [State.reg_setReg_self, BitVec.toNat_add, Nat.two_mul]
  case sub => rw [State.reg_setReg_self, BitVec.sub_self]; rfl
  case and => rw [BitVec.and_self]; exact sameRegisters_setReg_reg a s
  case or => rw [BitVec.or_self]; exact sameRegisters_setReg_reg a s
  case cmp => rw [State.flag_setFlag, beq_self_eq_true]

/-! ## Shifts (R85 to R87) -/

/-- Bit 0 of SL is zero. -/
theorem getLsbD_aluSl_zero (x : Word) : (aluSl x).getLsbD 0 = false := by simp [aluSl]

/-- The other bits of SL come from one place below. -/
theorem getLsbD_aluSl_succ (x : Word) {n : Nat} (h : n < 15) : (aluSl x).getLsbD (n + 1) = x.getLsbD n := by
  have : n + 1 < 16 := by omega
  rw [aluSl, BitVec.getLsbD_shiftLeft]
  simp [this]

/-- Each bit of SR comes from one place above; above bit 15 there is none. -/
theorem getLsbD_aluSr (x : Word) (n : Nat) : (aluSr x).getLsbD n = x.getLsbD (n + 1) := by
  simp [aluSr, Nat.add_comm]

/-- SRA is SR with the sign bit kept. -/
theorem getLsbD_aluSra (x : Word) {n : Nat} (h : n ≤ 15) :
    (aluSra x).getLsbD n = if n = 15 then x.getLsbD 15 else x.getLsbD (n + 1) := by
  have hmask : ∀ n ≤ 15, (0x8000#16).getLsbD n = decide (n = 15) := by decide
  rw [aluSra, BitVec.getLsbD_or, BitVec.getLsbD_and, hmask n h, ← aluSr, getLsbD_aluSr]
  split <;> simp [*]

/-- Settles O19: the bits of the value written, by the layout of each shift. -/
theorem shiftsMoveEveryBitOnePlace : Obligations.ShiftsMoveEveryBitOnePlace := by
  intro a s
  refine ⟨⟨_, exec_sl a s, onlyRegister_setReg a _ s, ?_⟩, ⟨_, exec_sr a s, onlyRegister_setReg a _ s, ?_⟩,
    ⟨_, exec_sra a s, onlyRegister_setReg a _ s, ?_⟩⟩ <;> rw [State.reg_setReg_self]
  · exact ⟨getLsbD_aluSl_zero _, fun _ => getLsbD_aluSl_succ _⟩
  · exact ⟨(getLsbD_aluSr _ 15).trans (BitVec.getLsbD_of_ge _ 16 le_rfl), fun n _ => getLsbD_aluSr _ n⟩
  · exact ⟨getLsbD_aluSra _ le_rfl, fun n hn => (getLsbD_aluSra _ hn.le).trans (if_neg hn.ne)⟩

/-- For its one place the formula of SRA is the conventional arithmetic shift (90_conflicts.md C5). -/
theorem aluSra_eq_sshiftRight (x : Word) : aluSra x = x.sshiftRight 1 := by
  apply BitVec.eq_of_getLsbD_eq
  intro n hn
  rw [getLsbD_aluSra x (Nat.le_of_lt_succ hn), BitVec.getLsbD_sshiftRight]
  by_cases h : n = 15
  · subst h; simp [BitVec.msb_eq_getLsbD_last]
  · have : n + 1 < 16 := by omega
    simp [h, Nat.add_comm 1 n, this]; omega

/-- Settles O20: the arithmetic shift halves the signed value, rounding down. -/
theorem sraHalvesTheSignedValue : Obligations.SraHalvesTheSignedValue := by
  intro a s
  refine ⟨_, exec_sra a s, ?_⟩
  rw [State.reg_setReg_self, aluSra_eq_sshiftRight, BitVec.toInt_sshiftRight, Int.shiftRight_eq_div_pow]
  rfl

/-! ## Immediate byte loads (R88, R89) -/

/-- LDL keeps the high byte and takes the immediate as the low byte. -/
theorem aluLdl_eq (x : Word) (i : Byte) : aluLdl x i = wordOfBytes (highByte x) i := by
  apply BitVec.eq_of_getLsbD_eq
  intro n hn
  have hmask : ∀ n < 16, (0xFF00#16).getLsbD n = decide (8 ≤ n) := by decide
  simp only [aluLdl, zext16, wordOfBytes, highByte, BitVec.getLsbD_or, BitVec.getLsbD_and, BitVec.getLsbD_append,
    BitVec.getLsbD_setWidth, BitVec.getLsbD_extractLsb', hmask n hn]
  by_cases h : n < 8
  · simp [h, hn]
  · have hsub : n - 8 < 8 := by omega
    simp [h, hsub, Nat.add_sub_cancel' (not_lt.mp h), not_lt.mp h]

/-- LDH takes the immediate as the high byte and keeps the low byte. -/
theorem aluLdh_eq (x : Word) (i : Byte) : aluLdh x i = wordOfBytes i (lowByte x) := by
  apply BitVec.eq_of_getLsbD_eq
  intro n hn
  have hmask : ∀ n < 16, (0x00FF#16).getLsbD n = decide (n < 8) := by decide
  simp only [aluLdh, zext16, wordOfBytes, lowByte, BitVec.getLsbD_or, BitVec.getLsbD_and, BitVec.getLsbD_append,
    BitVec.getLsbD_setWidth, BitVec.getLsbD_shiftLeft, BitVec.getLsbD_extractLsb', hmask n hn]
  by_cases h : n < 8
  · simp [h]
  · have : n - 8 < 16 := by omega
    simp [h, hn, this]

/-- Settles O21: the value written is the word of the byte kept and the byte loaded. -/
theorem byteLoadsReplaceOneByte : Obligations.ByteLoadsReplaceOneByte := by
  intro a v s
  refine ⟨⟨_, exec_ldl a v s, ?_⟩, ⟨_, exec_ldh a v s, ?_⟩⟩ <;> rw [State.reg_setReg_self]
  · rw [aluLdl_eq, lowByte_wordOfBytes, highByte_wordOfBytes]
    exact ⟨rfl, rfl, onlyRegister_setReg a _ s⟩
  · rw [aluLdh_eq, lowByte_wordOfBytes, highByte_wordOfBytes]
    exact ⟨rfl, rfl, onlyRegister_setReg a _ s⟩

/-- Settles O22: the LDL keeps the high byte that the LDH loaded, and the two bytes are the constant. -/
theorem idiomsLoadAnyConstant : Obligations.IdiomsLoadAnyConstant := by
  intro a k s
  refine ⟨⟨_, _, exec_ldh a (highByte k) s, exec_ldl a (lowByte k) _, ?_,
    (onlyRegister_setReg a _ s).trans (onlyRegister_setReg a _ _)⟩, ⟨_, exec_sub a a s, ?_, onlyRegister_setReg a _ s⟩⟩
  · rw [State.reg_setReg_self, State.reg_setReg_self, aluLdh_eq, aluLdl_eq, highByte_wordOfBytes,
      wordOfBytes_highByte_lowByte]
  · rw [State.reg_setReg_self, BitVec.sub_self]; rfl

end Sys2Proof.Machine

/-! PROOFS. Compare and control transfer (spec/44_compare_branch.md): CMP, JE, JMP and the runs they make. -/

namespace Sys2Proof.Machine

/-- Settles O23: the flag takes the equality of the two words, which is that of their numbers. -/
theorem compareWritesTheFlagOnly : Obligations.CompareWritesTheFlagOnly := by
  intro a b s
  refine ⟨_, exec_cmp a b s, ?_, fun _ => rfl, rfl, rfl, fun _ => rfl, fun _ => rfl⟩
  rw [State.flag_setFlag, beq_iff_eq, BitVec.toNat_inj]

/-- JE with the flag set takes the branch (R91). -/
theorem exec_je_taken {k : Byte} {s : State} (h : s.flag = true) :
    exec (.je k) s = .next (s.setPc (zext16 k)) := by
  rw [exec_je, if_pos h]

/-- JE with the flag clear does nothing after the advance (R91). -/
theorem exec_je_not_taken {k : Byte} {s : State} (h : s.flag = false) : exec (.je k) s = .next s := by
  rw [exec_je, if_neg (by simp [h])]

/-- All that JE can do: the branch with the flag set, nothing with it clear (R91). -/
theorem exec_je_cases {k : Byte} {s t : State} (h : exec (.je k) s = .next t) :
    (s.flag = true ∧ t = s.setPc (zext16 k)) ∨ (s.flag = false ∧ t = s) := by
  cases hf : s.flag with
  | true =>
    rw [exec_je_taken hf] at h
    exact .inl ⟨rfl, (Host.Outcome.next.inj h).symm⟩
  | false =>
    rw [exec_je_not_taken hf] at h
    exact .inr ⟨rfl, (Host.Outcome.next.inj h).symm⟩

/-- Settles O24: by the flag, a pc write with the target or no change. -/
theorem jumpIfEqualBranchesOnTheFlag : Obligations.JumpIfEqualBranchesOnTheFlag := by
  intro k s
  cases h : s.flag with
  | true =>
    exact ⟨_, exec_je_taken h, fun _ => toNat_zext16 k, nofun, h, fun _ => rfl, rfl, fun _ => rfl, fun _ => rfl⟩
  | false =>
    exact ⟨s, exec_je_not_taken h, nofun, fun _ => rfl, h, fun _ => rfl, rfl, fun _ => rfl, fun _ => rfl⟩

/-- Settles O25: a pc write with the target. -/
theorem jumpSetsPcToTheTarget : Obligations.JumpSetsPcToTheTarget :=
  fun k s => ⟨_, exec_jmp k s, toNat_zext16 k, rfl, fun _ => rfl, rfl, fun _ => rfl, fun _ => rfl⟩

/-! ## A branch to itself -/

/-- A run from a state that steps to itself stays there. -/
theorem State.runFor_of_step_self {s : State} (h : step s = .next s) (n : Nat) : s.runFor n = s := by
  induction n with
  | zero => exact s.runFor_zero
  | succ n ih => rw [State.runFor_succ_of_next h, ih]

/-- A branch to the instruction's own address undoes the advance of its cycle. -/
theorem State.advance_setPc_self {s : State} {k : Byte} (h : s.pc.toNat = k.toNat) :
    s.advance.setPc (zext16 k) = s := by
  have hk : zext16 k = s.pc := BitVec.eq_of_toNat_eq ((toNat_zext16 k).trans h.symm)
  rw [hk]; rfl

/-- Settles O26: the branch brings pc back, so the step answers the state it started from. -/
theorem branchToItselfRunsForever : Obligations.BranchToItselfRunsForever := by
  intro s k hr hpc hbranch
  apply State.runFor_of_step_self
  rw [step_of_pc_eq hr hpc]
  obtain hjmp | ⟨hje, hflag⟩ := hbranch
  · rw [hjmp, exec_jmp, State.advance_setPc_self hpc]
  · rw [hje, exec_je_taken (s := s.advance) hflag, State.advance_setPc_self hpc]

/-! ## CMP, then JE (R122) -/

/-- The two steps: the CMP leaves the equality in the flag, and the JE at the next address branches by it. -/
theorem runFor_two_cmp_je {s : State} {p k : Byte} {a b : RegIx} (hr : s.run = .running)
    (hpc : s.pc.toNat = p.toNat) (hp : p.toNat ≤ 254) (hcmp : decode (s.imem.readWord p) = .cmp a b)
    (hje : decode (s.imem.readWord (p + 1)) = .je k) :
    s.runFor 2 = if s.reg a = s.reg b then (s.advance.setFlag true).advance.setPc (zext16 k)
      else (s.advance.setFlag false).advance := by
  have hnext : s.advance.pc.toNat = (p + 1).toNat := by
    rw [toNat_pc_advance (by rw [hpc]; exact Nat.lt_succ_of_le (by omega)), BitVec.toNat_add, hpc]
    exact (Nat.mod_eq_of_lt (by omega : p.toNat + 1 < 256)).symm
  have hfirst : step s = .next (s.advance.setFlag (s.reg a == s.reg b)) := by
    rw [step_of_pc_eq hr hpc, hcmp, exec_cmp]; rfl
  have hsecond (f : Bool) : step (s.advance.setFlag f) = exec (.je k) (s.advance.setFlag f).advance := by
    rw [step_of_pc_eq (s := s.advance.setFlag f) hr hnext]
    exact congrArg (exec · _) hje
  split
  next heq =>
    rw [beq_iff_eq.mpr heq] at hfirst
    rw [State.runFor_succ_of_next hfirst,
      State.runFor_succ_of_next ((hsecond true).trans (exec_je_taken rfl)), State.runFor_zero]
  next hne =>
    rw [beq_false_of_ne hne] at hfirst
    rw [State.runFor_succ_of_next hfirst,
      State.runFor_succ_of_next ((hsecond false).trans (exec_je_not_taken rfl)), State.runFor_zero]

/-- Settles O27: pc and the frame of the state that the two steps answer, for equal and unequal registers. -/
theorem compareThenJumpBranchesOnEquality : Obligations.CompareThenJumpBranchesOnEquality := by
  intro s p k a b hr hpc hp hcmp hje
  rw [runFor_two_cmp_je hr hpc hp hcmp hje]
  split
  next heq => exact ⟨fun _ => toNat_zext16 k, fun hne => absurd heq hne, fun _ => rfl, hr⟩
  next hne =>
    refine ⟨fun heq => absurd heq hne, fun _ => ?_, fun _ => rfl, hr⟩
    have hpc1 : s.advance.pc.toNat = s.pc.toNat + 1 :=
      toNat_pc_advance (hpc ▸ Nat.lt_of_le_of_lt hp (by decide))
    have hpc2 : (s.advance.setFlag false).advance.pc.toNat = s.advance.pc.toNat + 1 :=
      toNat_pc_advance (s := s.advance.setFlag false) (by
        rw [State.pc_setFlag, hpc1, hpc]; exact Nat.lt_succ_of_le (by omega))
    rw [hpc2, hpc1, hpc]

end Sys2Proof.Machine

/-! PROOFS. Data memory access (spec/45_memory_access.md, spec/20_memory.md): LD, ST, and what a run and the
canonical form say of the data words. -/

namespace Sys2Proof.Machine

/-- Settles O28: the word read is the word of the two cells at the address. -/
theorem loadReadsTheWholeWord : Obligations.LoadReadsTheWholeWord := by
  intro a addr s
  refine ⟨_, exec_ld a addr s, ?_, ?_, onlyRegister_setReg a _ s⟩
  · rw [State.reg_setReg_self, State.memRead, Memory.readWord, lowByte_wordOfBytes]; rfl
  · rw [State.reg_setReg_self, State.memRead, Memory.readWord, highByte_wordOfBytes]; rfl

/-- Settles O29: one word write of the data store. -/
theorem storeWritesOneWholeWord : Obligations.StoreWritesOneWholeWord :=
  fun a addr s => ⟨_, exec_st a addr s, fun hs => exec_st_memRead hs (exec_st a addr s),
    fun _ hl hh => Memory.readByte_writeWord_of_ne _ _ _ hl hh, fun _ => rfl, rfl, rfl, rfl, fun _ => rfl⟩

/-! ## A data word between two stores (R44) -/

/-- An instruction that is no ST to the address leaves the data word there. -/
theorem exec_memRead {i : Instr} {s t : State} {addr : Byte} (hi : ∀ a, i ≠ .st a addr)
    (h : exec i s = .next t) : t.memRead addr = s.memRead addr := by
  by_cases hst : ∃ a addr', i = .st a addr'
  · obtain ⟨a, addr', rfl⟩ := hst
    have hne : addr ≠ addr' := fun e => hi a (e ▸ rfl)
    rw [State.memRead, exec_st_dmem h, Memory.readWord_writeWord_of_ne _ _ hne, ← State.memRead]
  · exact State.memRead_eq_of_dmem (exec_dmem (fun a addr' e => hst ⟨a, addr', e⟩) h) addr

/-- A step that fetches no ST to the address leaves the data word there. -/
theorem step_memRead {s t : State} {addr : Byte} (hs : ∀ a w, s.iFetch = some w → decode w ≠ .st a addr)
    (h : step s = .next t) : t.memRead addr = s.memRead addr := by
  obtain ⟨-, ⟨w, hf, hexec⟩ | ⟨-, rfl⟩⟩ := step_cases h
  · exact exec_memRead (s := s.advance) (fun a => hs a w hf) hexec
  · exact State.memRead_setRun s _ addr

/-- Settles O31, by induction on the number of steps: the first step leaves the word, and the run from its
state fetches no ST to the address either. -/
theorem dataWordKeepsItsValueUntilStored : Obligations.DataWordKeepsItsValueUntilStored := by
  intro n
  induction n with
  | zero => intro s addr _; rfl
  | succ n ih =>
    intro s addr hno
    by_cases hnext : ∃ t, step s = .next t
    · obtain ⟨t, ht⟩ := hnext
      have htail : ∀ k, k < n → ∀ a w, (t.runFor k).iFetch = some w → decode w ≠ .st a addr := by
        intro k hk
        rw [← State.runFor_succ_of_next ht]
        exact hno (k + 1) (Nat.succ_lt_succ hk)
      rw [State.runFor_succ_of_next ht, ih t addr htail]
      exact step_memRead (hno 0 n.succ_pos) ht
    · rw [State.runFor_of_no_next (not_exists.mp hnext)]

/-! ## The canonical form (log entry 2) -/

/-- A cell that is not listed reads 0. -/
theorem Memory.readByte_eq_zero_of_ne {m : Memory} {n : Nat} (h : ∀ c ∈ m, c.1 ≠ n) : m.readByte n = 0 := by
  induction m with
  | nil => rfl
  | cons c m ih =>
    rw [Memory.readByte, if_neg (h c List.mem_cons_self)]
    exact ih fun d hd => h d (List.mem_cons_of_mem c hd)

/-- The first cell listed reads as its byte. -/
theorem Memory.readByte_head (c : Host.Cell) (m : Memory) : Memory.readByte (c :: m) c.1 = c.2 := if_pos rfl

/-- Without its first cell a canonical store is canonical. -/
theorem Memory.wf_tail {c : Host.Cell} {m : Memory} (h : Memory.wf (c :: m)) : m.wf :=
  ⟨(List.pairwise_cons.mp h.1).2, fun d hd => h.2 d (List.mem_cons_of_mem c hd)⟩

/-- In a canonical store every cell below the first one listed reads 0. -/
theorem Memory.readByte_eq_zero_of_lt_head {c : Host.Cell} {m : Memory} (h : Memory.wf (c :: m)) {n : Nat}
    (hn : n < c.1) : Memory.readByte (c :: m) n = 0 := by
  apply Memory.readByte_eq_zero_of_lt
  intro d hd
  rcases List.mem_cons.mp hd with rfl | hd
  · exact hn
  · exact hn.trans ((List.pairwise_cons.mp h.1).1 d hd)

/-- Where two canonical stores read the same, the second lists nothing before the first one's first cell: that
cell would read 0. -/
theorem Memory.head_le_of_readByte {c d : Host.Cell} {m m' : Memory} (hm : Memory.wf (c :: m))
    (hm' : Memory.wf (d :: m')) (h : ∀ n, Memory.readByte (c :: m) n = Memory.readByte (d :: m') n) :
    c.1 ≤ d.1 := by
  by_contra hlt
  have hd := h d.1
  rw [Memory.readByte_eq_zero_of_lt_head hm (not_le.mp hlt), Memory.readByte_head] at hd
  exact (hm'.2 d List.mem_cons_self).2 hd.symm

/-- Canonical stores that read the same in every cell are equal. -/
theorem Memory.eq_of_readByte : ∀ {m m' : Memory}, m.wf → m'.wf → (∀ n, m.readByte n = m'.readByte n) → m = m'
  | [], [], _, _, _ => rfl
  | [], d :: m', _, hm', h => absurd ((Memory.readByte_head d m').symm.trans (h d.1).symm)
      (hm'.2 d List.mem_cons_self).2
  | c :: m, [], hm, _, h => absurd ((Memory.readByte_head c m).symm.trans (h c.1)) (hm.2 c List.mem_cons_self).2
  | c :: m, d :: m', hm, hm', h => by
    have haddr : c.1 = d.1 :=
      le_antisymm (Memory.head_le_of_readByte hm hm' h) (Memory.head_le_of_readByte hm' hm fun n => (h n).symm)
    have hbyte : c.2 = d.2 := by
      rw [← Memory.readByte_head c m, h, haddr, Memory.readByte_head]
    obtain rfl : c = d := Prod.ext haddr hbyte
    have htail : ∀ n, Memory.readByte m n = Memory.readByte m' n := by
      intro n
      by_cases hn : c.1 = n
      · subst hn
        rw [Memory.readByte_eq_zero_of_lt (List.pairwise_cons.mp hm.1).1,
          Memory.readByte_eq_zero_of_lt (List.pairwise_cons.mp hm'.1).1]
      · have hcn := h n
        rwa [Memory.readByte, Memory.readByte, if_neg hn, if_neg hn] at hcn
    rw [Memory.eq_of_readByte (Memory.wf_tail hm) (Memory.wf_tail hm') htail]

/-- The cells of a word hold its bytes. -/
theorem Memory.readByte_lowCell (m : Memory) (a : Byte) : m.readByte (lowCell a) = lowByte (m.readWord a) :=
  (lowByte_wordOfBytes _ _).symm

theorem Memory.readByte_highCell (m : Memory) (a : Byte) : m.readByte (highCell a) = highByte (m.readWord a) :=
  (highByte_wordOfBytes _ _).symm

/-- Every cell of a store is the low or the high cell of a word. -/
theorem eq_lowCell_or_eq_highCell {n : Nat} (h : n < 2 * Config.dmemWords) :
    ∃ a : Byte, n = lowCell a ∨ n = highCell a := by
  simp only [Config.dmemWords] at h
  have ha : (BitVec.ofNat 8 (n / 2)).toNat = n / 2 := by rw [BitVec.toNat_ofNat]; omega
  refine ⟨BitVec.ofNat 8 (n / 2), ?_⟩
  simp only [lowCell, highCell, ha]
  omega

/-- No cell outside a canonical store reads as anything but 0. -/
theorem Memory.readByte_eq_zero_of_ge {m : Memory} (hm : m.wf) {n : Nat} (h : 2 * Config.dmemWords ≤ n) :
    m.readByte n = 0 :=
  Memory.readByte_eq_zero_of_ne fun c hc => ((hm.2 c hc).1.trans_le h).ne

/-- Settles O32: equal words have equal bytes in the two cells of each, and outside the words canonical stores
read 0. -/
theorem canonicalStoresAreTheirWords : Obligations.CanonicalStoresAreTheirWords := by
  intro m m' hm hm' h
  apply Memory.eq_of_readByte hm hm'
  intro n
  by_cases hn : n < 2 * Config.dmemWords
  · obtain ⟨a, rfl | rfl⟩ := eq_lowCell_or_eq_highCell hn
    · rw [Memory.readByte_lowCell, Memory.readByte_lowCell, h]
    · rw [Memory.readByte_highCell, Memory.readByte_highCell, h]
  · rw [Memory.readByte_eq_zero_of_ge hm (not_lt.mp hn), Memory.readByte_eq_zero_of_ge hm' (not_lt.mp hn)]

end Sys2Proof.Machine

/-! PROOFS. The run state machine (spec/40_execution_cycle.md section 2), HLT and the unassigned opcodes
(spec/46_halt_and_unassigned.md) and the fetch fault (spec/60_exceptions.md). -/

namespace Sys2Proof.Machine

/-! ## The trace record of a state -/

/-- A RUNNING state with a word to fetch emits its record (R68, R112). -/
theorem State.traceRecord_of_iFetch_eq_some {s : State} {w : Word} (hr : s.run = .running)
    (hf : s.iFetch = some w) : s.traceRecord = some ⟨s.pc, w, s.reg 0, s.reg 1, s.reg 2, s.reg 3⟩ := by
  simp [State.traceRecord, hr, hf]

/-- Without a word to fetch there is no record (R99). -/
theorem State.traceRecord_of_iFetch_eq_none {s : State} (hr : s.run = .running) (hf : s.iFetch = none) :
    s.traceRecord = none := by
  simp [State.traceRecord, hr, hf]

/-! ## One step -/

/-- Settles O9: the two bytes are the cells of the word at pc, which is the word the step fetches. -/
theorem stepRunsTheDecodedInstruction : Obligations.StepRunsTheDecodedInstruction := by
  intro s i hr hpc hbytes
  have hcell : (s.pc.setWidth 8).toNat = s.pc.toNat := by
    rw [BitVec.toNat_setWidth]; exact Nat.mod_eq_of_lt (Nat.lt_succ_of_le hpc)
  have hi : decode (s.imem.readWord (s.pc.setWidth 8)) = i := by
    rw [Memory.readWord, lowCell, highCell, hcell]
    exact congrArg Prod.fst (Except.ok.inj hbytes)
  subst hi
  exact ⟨wf_decode _, step_of_pc_le hr hpc⟩

/-- Settles O33: a write of the run state. -/
theorem haltSetsTheRunState : Obligations.HaltSetsTheRunState :=
  fun s => ⟨_, exec_hlt s, rfl, fun _ => rfl, rfl, rfl, fun _ => rfl, fun _ => rfl⟩

/-- Bit 15 is the highest of the opcode field: where it is set the opcode is 16 to 31 (R59). -/
theorem numOps_le_opc_of_bit15 {w : Word} (h : w.getLsbD 15 = true) : Config.numOps ≤ (opc w).toNat := by
  have hmsb : w.msb = true := by rw [BitVec.msb_eq_getLsbD_last]; exact h
  have hge : 32768 ≤ w.toNat := by simpa [BitVec.msb_eq_decide] using hmsb
  rw [toNat_opc]
  simp only [Config.numOps]
  omega

/-- Settles O34: the word decodes to an unassigned no-op, so the advance of the cycle is all that is left. -/
theorem unassignedWordOnlyAdvancesPc : Obligations.UnassignedWordOnlyAdvancesPc := by
  refine ⟨fun c s _ => exec_unassigned c s, fun s w hr hpc hw h15 => ⟨?step, ?trace⟩⟩
  case step =>
    rw [step_of_pc_le hr hpc, hw, decode_of_unassigned (numOps_le_opc_of_bit15 h15), exec_unassigned]
    rfl
  case trace => rw [State.traceRecord_of_iFetch_eq_some hr (State.iFetch_of_le hpc), Option.isSome_some]

/-- The step of a HLT halts on the advanced state (R75, R96; D9). -/
theorem step_hlt {s : State} (hr : s.run = .running) (hpc : s.pc.toNat ≤ 255)
    (hw : decode (s.imem.readWord (s.pc.setWidth 8)) = .hlt) :
    step s = .next (s.advance.setRun .halted) := by
  rw [step_of_pc_le hr hpc, hw, exec_hlt]

/-- Settles O35: the step of the HLT keeps the advance, and from HALTED no step leads on. -/
theorem haltedRunIsFinal : Obligations.HaltedRunIsFinal := by
  intro s h hr hpc hw
  have hlt : s.pc.toNat < Config.imemWords := hpc ▸ h.isLt
  have hstep : step s = .next (s.advance.setRun .halted) :=
    step_hlt hr (Nat.le_of_lt_succ hlt) (by rwa [setWidth_eq_of_toNat_eq hpc])
  have hstay : ∀ n, (s.advance.setRun .halted).runFor n = s.advance.setRun .halted :=
    State.runFor_of_stopped (by simp)
  exact ⟨_, hstep, rfl, hpc ▸ toNat_pc_advance hlt, fun _ => rfl, rfl, fun _ => rfl,
    fun n => ⟨hstay n, congrArg State.run (hstay n)⟩⟩

/-- Settles O36, row by row of the table of R73: RUNNING by pc and the opcode fetched, and the two final run
states. -/
theorem runStateMovesAsTheTableSays : Obligations.RunStateMovesAsTheTableSays := by
  refine ⟨fun s hr hpc => ?_, fun s hr hpc => step_of_pc_gt hr hpc, fun _ => step_halted, fun _ => step_faulted⟩
  obtain ⟨t, ht⟩ := step_next hr
  refine ⟨t, ht, fun hne => ?goesOn, fun heq => ?halts⟩
  case goesOn =>
    rw [step_of_pc_le hr hpc] at ht
    exact (exec_run ht (mt decode_eq_hlt.mp hne)).trans hr
  case halts =>
    rw [step_hlt hr hpc (decode_eq_hlt.mpr heq)] at ht
    exact (Host.Outcome.next.inj ht).symm

/-- Settles O37: raising the fault writes the run state, and from FAULTED no step leads on. -/
theorem fetchFaultIsPreciseAndFinal : Obligations.FetchFaultIsPreciseAndFinal := by
  intro s hr hpc
  have hstay : ∀ n, s.raiseFetchOutOfRange.runFor n = s.raiseFetchOutOfRange :=
    State.runFor_of_stopped (by simp [State.raiseFetchOutOfRange])
  have hnever : ∀ n, ¬ s.raiseFetchOutOfRange.HaltsWithin n := by
    intro n hhalts
    rw [State.HaltsWithin, hstay] at hhalts
    cases hhalts
  exact ⟨_, step_of_pc_gt hr hpc, rfl, rfl, rfl, rfl, fun _ => rfl, fun _ => rfl, fun _ => rfl,
    State.traceRecord_of_iFetch_eq_none hr (State.iFetch_of_gt hpc), fun n => ⟨hstay n, hnever n, rfl⟩⟩

/-- Settles O38: every instruction answers a next state, and a step is in FAULTED exactly where no word was
fetched. -/
theorem executeNeverFails : Obligations.ExecuteNeverFails := by
  refine ⟨exec_next, fun s hr => ?_⟩
  obtain ⟨t, ht⟩ := step_next hr
  exact ⟨t, ht, (step_run_eq_faulted ht).trans State.iFetch_eq_none⟩

end Sys2Proof.Machine

/-! PROOFS. What an instruction can observe: pc (spec/10_state.md R20), registers (R16), and the data store
(R26, spec/20_memory.md R42). -/

namespace Sys2Proof.Machine

/-! ## The program counter -/

/-- An instruction that is no branch commutes with any change of pc: it reads no pc and writes none. -/
theorem exec_setPc {i : Instr} {s t : State} (p : Word) (hje : ∀ k, i ≠ .je k) (hjmp : ∀ k, i ≠ .jmp k)
    (h : exec i s = .next t) : exec i (s.setPc p) = .next (t.setPc p) := by
  cases i with
  | je k => exact absurd rfl (hje k)
  | jmp k => exact absurd rfl (hjmp k)
  | _ =>
    obtain rfl := Host.Outcome.next.inj h
    rfl

/-- Whatever pc is, an instruction answers the same state but for pc (R20). -/
theorem exec_setPc_eq_setPc {i : Instr} {s t : State} (p : Word) (h : exec i s = .next t) :
    ∃ q, exec i (s.setPc p) = .next (t.setPc q) := by
  by_cases hjmp : ∃ k, i = .jmp k
  · obtain ⟨k, rfl⟩ := hjmp
    obtain rfl := Host.Outcome.next.inj h
    exact ⟨zext16 k, rfl⟩
  by_cases hje : ∃ k, i = .je k
  · obtain ⟨k, rfl⟩ := hje
    obtain ⟨hf, rfl⟩ | ⟨hf, rfl⟩ := exec_je_cases h
    · exact ⟨zext16 k, exec_je_taken (s := s.setPc p) hf⟩
    · exact ⟨p, exec_je_not_taken (s := t.setPc p) hf⟩
  exact ⟨p, exec_setPc p (not_exists.mp hje) (not_exists.mp hjmp) h⟩

/-- Only a branch that is taken writes pc after the advance (R20). -/
theorem exec_pc {i : Instr} {s t : State} (hjmp : ∀ k, i ≠ .jmp k) (hje : ∀ k, i = .je k → s.flag = false)
    (h : exec i s = .next t) : t.pc = s.pc := by
  by_cases hbranch : ∃ k, i = .je k
  · obtain ⟨k, rfl⟩ := hbranch
    rw [exec_je_not_taken (hje k rfl)] at h
    obtain rfl := Host.Outcome.next.inj h
    rfl
  · have hset := exec_setPc s.pc (not_exists.mp hbranch) hjmp h
    rw [show s.setPc s.pc = s from rfl, h] at hset
    rw [Host.Outcome.next.inj hset, State.pc_setPc]

/-- Settles O41: a change of pc before the instruction changes nothing after it but pc. -/
theorem pcIsNeverAnOperand : Obligations.PcIsNeverAnOperand := by
  intro i s t p h
  obtain ⟨q, hq⟩ := exec_setPc_eq_setPc p h
  exact ⟨⟨_, hq, rfl, rfl, rfl, rfl, rfl⟩, fun hjmp hje => exec_pc hjmp hje h⟩

/-! ## The registers (R16) -/

/-- The state with another register file. -/
def State.withRegs (s : State) (rs : Vector Word Config.numRegs) : State := { s with regs := rs }

/-- A state that differs in registers only is the other one with its register file. -/
theorem State.eq_withRegs {s u : State} (hflag : u.flag = s.flag) (hpc : u.pc = s.pc) (hrun : u.run = s.run)
    (himem : u.imem = s.imem) (hdmem : u.dmem = s.dmem) : u = s.withRegs u.regs := by
  cases u
  cases hflag; cases hpc; cases hrun; cases himem; cases hdmem
  rfl

/-- An instruction that writes a register does so with a value of the registers it reads, and nothing else
happens. -/
theorem exec_of_regWritten {i : Instr} {a : RegIx} {s u : State} (hi : regWritten i = some a)
    (hread : ∀ r ∈ regsRead i, u.reg r = s.reg r) (hdmem : u.dmem = s.dmem) :
    ∃ v, exec i s = .next (s.setReg a v) ∧ exec i u = .next (u.setReg a v) := by
  cases i with
  | mov b c =>
    obtain rfl := Option.some.inj hi
    have hc : u.reg c = s.reg c := hread c (by simp [regsRead])
    exact ⟨_, exec_mov b c s, by rw [exec_mov, hc]⟩
  | add b c | sub b c | and b c | or b c =>
    obtain rfl := Option.some.inj hi
    have hb : u.reg b = s.reg b := hread b (by simp [regsRead])
    have hc : u.reg c = s.reg c := hread c (by simp [regsRead])
    refine ⟨_, rfl, ?_⟩
    simp only [exec_add, exec_sub, exec_and, exec_or, hb, hc]
    rfl
  | sl b | sr b | sra b | ldl b k | ldh b k =>
    obtain rfl := Option.some.inj hi
    have hb : u.reg b = s.reg b := hread b (by simp [regsRead])
    refine ⟨_, rfl, ?_⟩
    simp only [exec_sl, exec_sr, exec_sra, exec_ldl, exec_ldh, hb]
    rfl
  | ld b addr =>
    obtain rfl := Option.some.inj hi
    exact ⟨_, exec_ld b addr s, by rw [exec_ld, State.memRead_eq_of_dmem hdmem]⟩
  | _ => cases hi

/-- An instruction that writes no register commutes with a change of the registers it does not read. -/
theorem exec_withRegs {i : Instr} {s t : State} {rs : Vector Word Config.numRegs} (hi : regWritten i = none)
    (hread : ∀ r ∈ regsRead i, (s.withRegs rs).reg r = s.reg r) (h : exec i s = .next t) :
    exec i (s.withRegs rs) = .next (t.withRegs rs) := by
  cases i with
  | cmp a b =>
    obtain rfl := Host.Outcome.next.inj h
    rw [exec_cmp, hread a (by simp [regsRead]), hread b (by simp [regsRead])]
    rfl
  | st a addr =>
    obtain rfl := Host.Outcome.next.inj h
    rw [exec_st, hread a (by simp [regsRead])]
    rfl
  | je k =>
    obtain ⟨hf, rfl⟩ | ⟨hf, rfl⟩ := exec_je_cases h
    · exact exec_je_taken (s := s.withRegs rs) hf
    · exact exec_je_not_taken (s := t.withRegs rs) hf
  | jmp | hlt | unassigned =>
    obtain rfl := Host.Outcome.next.inj h
    rfl
  | _ => cases hi

/-- Settles O42: an instruction is a write of the listed register with a value of the registers it reads, or,
where none is listed, it keeps the register file. -/
theorem onlyTheListedRegistersMatter : Obligations.OnlyTheListedRegistersMatter := by
  intro i s t h
  cases hi : regWritten i with
  | some a =>
    refine ⟨fun r hr => ?frame, fun u hread hflag hpc hrun himem hdmem => ?sameWrite⟩
    case frame =>
      obtain ⟨v, hs, -⟩ := exec_of_regWritten (s := s) (u := s) hi (fun _ _ => rfl) rfl
      rw [hs] at h
      obtain rfl := Host.Outcome.next.inj h
      exact s.reg_setReg_of_ne v fun e => hr (e ▸ rfl)
    case sameWrite =>
      obtain ⟨v, hs, hu⟩ := exec_of_regWritten hi hread hdmem
      rw [hs] at h
      obtain rfl := Host.Outcome.next.inj h
      refine ⟨_, hu, fun r hr => ?_, hflag, hpc, hrun, himem, hdmem⟩
      obtain rfl := Option.some.inj hr
      rw [State.reg_setReg_self, State.reg_setReg_self]
  | none =>
    refine ⟨fun r _ => ?frame, fun u hread hflag hpc hrun himem hdmem => ?sameRest⟩
    case frame =>
      have hkeep := exec_withRegs (rs := s.regs) hi (fun _ _ => rfl) h
      rw [show s.withRegs s.regs = s from rfl, h] at hkeep
      exact State.reg_eq_of_regs (congrArg State.regs (Host.Outcome.next.inj hkeep)) r
    case sameRest =>
      have hu := State.eq_withRegs hflag hpc hrun himem hdmem
      rw [hu] at hread ⊢
      exact ⟨_, exec_withRegs hi hread h, nofun, rfl, rfl, rfl, rfl, rfl⟩

/-! ## The data store (R26, R42) -/

/-- A request is a WRITE only where the instruction is ST (R42). -/
theorem dataRequest_eq_write {i : Instr} {s : State} :
    (∃ d v, dataRequest i s = .write d v) ↔ ∃ a addr, i = .st a addr := by
  constructor
  · rintro ⟨d, v, h⟩
    cases i with
    | st a addr => exact ⟨a, addr, rfl⟩
    | _ => cases h
  · rintro ⟨a, addr, rfl⟩
    exact ⟨_, _, rfl⟩

/-- A request is a READ only where the instruction is LD (R42). -/
theorem dataRequest_eq_read {i : Instr} {s : State} :
    (∃ d, dataRequest i s = .read d) ↔ ∃ a addr, i = .ld a addr := by
  constructor
  · rintro ⟨d, h⟩
    cases i with
    | ld a addr => exact ⟨a, addr, rfl⟩
    | _ => cases h
  · rintro ⟨a, addr, rfl⟩
    exact ⟨_, rfl⟩

/-- Only a WRITE changes the data store it is made of (R36). -/
theorem perform_of_ne_write {r : DataRequest} (h : ∀ d v, r ≠ .write d v) (m : Memory) : r.perform m = m := by
  cases r with
  | idle | read => rfl
  | write d v => exact absurd rfl (h d v)

/-- Settles O43: ST performs its WRITE, and where the instruction is not ST neither it nor its request changes
the data store. -/
theorem dataRequestAccountsForEveryAccess : Obligations.DataRequestAccountsForEveryAccess := by
  refine ⟨fun i s t h => ?perform, fun a addr s => ⟨_, exec_ld a addr s, ?response⟩,
    fun _ _ => dataRequest_eq_write, fun _ _ => dataRequest_eq_read⟩
  case perform =>
    by_cases hst : ∃ a addr, i = .st a addr
    · obtain ⟨a, addr, rfl⟩ := hst
      exact exec_st_dmem h
    · have hne : ∀ d v, dataRequest i s ≠ .write d v := fun d v e => hst (dataRequest_eq_write.mp ⟨d, v, e⟩)
      rw [perform_of_ne_write hne]
      exact exec_dmem (fun a addr e => hst ⟨a, addr, e⟩) h
  case response => rw [State.reg_setReg_self]; rfl

/-- The state with another data store. -/
def State.withDmem (s : State) (m : Memory) : State := { s with dmem := m }

/-- Whatever the data store holds, an instruction other than LD answers the same state but for it (R26). -/
theorem exec_withDmem {i : Instr} {s t : State} (m : Memory) (hld : ∀ a addr, i ≠ .ld a addr)
    (h : exec i s = .next t) : ∃ m', exec i (s.withDmem m) = .next (t.withDmem m') := by
  cases i with
  | ld a addr => exact absurd rfl (hld a addr)
  | je k =>
    obtain ⟨hf, rfl⟩ | ⟨hf, rfl⟩ := exec_je_cases h
    · exact ⟨m, exec_je_taken (s := s.withDmem m) hf⟩
    · exact ⟨m, exec_je_not_taken (s := t.withDmem m) hf⟩
  | st a addr =>
    obtain rfl := Host.Outcome.next.inj h
    exact ⟨m.writeWord addr (s.reg a), rfl⟩
  | _ =>
    obtain rfl := Host.Outcome.next.inj h
    exact ⟨m, rfl⟩

/-- Settles O44: a change of the data store before the instruction changes nothing after it but the data
store, and the fetch reads the instruction store. -/
theorem onlyLoadObservesTheDataStore : Obligations.OnlyLoadObservesTheDataStore := by
  intro i s t m h hld
  obtain ⟨m', hu⟩ := exec_withDmem m hld h
  exact ⟨⟨_, hu, rfl, rfl, rfl, rfl, rfl⟩, rfl⟩

end Sys2Proof.Machine

/-! PROOFS. What is observed of the machine (spec/20_memory.md R41, spec/60_exceptions.md R112) and what the host
does before and after a run (spec/70_reset_and_hazards.md). -/

namespace Sys2Proof.Machine

/-! ## The fetch interface (R41) -/

theorem State.fetchRequest_of_running {s : State} (h : s.run = .running) : s.fetchRequest = some s.pc := by
  simp [State.fetchRequest, h]

theorem State.fetchRequest_of_stopped {s : State} (h : s.run ≠ .running) : s.fetchRequest = none := by
  cases hr : s.run with
  | running => exact absurd hr h
  | halted | faulted => simp [State.fetchRequest, hr]

/-- In RUNNING the interface answers the word that the step fetches. -/
theorem State.fetchResponse_of_running {s : State} (h : s.run = .running) : s.fetchResponse = s.iFetch := by
  simp [State.fetchResponse, State.fetchRequest_of_running h, State.iFetch]

theorem State.fetchResponse_of_stopped {s : State} (h : s.run ≠ .running) : s.fetchResponse = none := by
  simp [State.fetchResponse, State.fetchRequest_of_stopped h]

/-- Settles O45: in RUNNING the request is pc and its answer the fetched word; otherwise there is neither. -/
theorem fetchRequestIsPcWhileRunning : Obligations.FetchRequestIsPcWhileRunning := by
  intro s
  by_cases hr : s.run = .running
  · rw [State.fetchRequest_of_running hr, State.fetchResponse_of_running hr]
    exact ⟨iff_of_true rfl hr, iff_of_false nofun (not_not.mpr hr), fun w hw => step_of_iFetch_eq_some hr hw,
      fun _ => State.iFetch_eq_none⟩
  · rw [State.fetchRequest_of_stopped hr, State.fetchResponse_of_stopped hr]
    exact ⟨iff_of_false nofun hr, iff_of_true rfl hr, nofun, fun h => absurd h hr⟩

/-! ## The trace (R112) -/

/-- Settles O46: a step that fetches emits the record of its word and does not end in FAULTED; the fetch fault
does, and emits none. -/
theorem traceHasOneRecordPerInstruction : Obligations.TraceHasOneRecordPerInstruction := by
  intro s t h
  obtain ⟨hrun, ⟨w, hf, -⟩ | ⟨hf, -⟩⟩ := step_cases h
  · have hrecord := State.traceRecord_of_iFetch_eq_some hrun hf
    have hgoes : t.run ≠ .faulted := by rw [Ne, step_run_eq_faulted h, hf]; nofun
    refine ⟨iff_of_true (by rw [hrecord]; rfl) hgoes, fun r hr => ?_, State.traceFor_succ_of_next h⟩
    obtain rfl := Option.some.inj (hrecord.symm.trans hr)
    exact ⟨rfl, (State.iFetch_eq_some.mp hf).2, rfl, rfl, rfl, rfl⟩
  · have hrecord := State.traceRecord_of_iFetch_eq_none hrun hf
    have hfaults : ¬t.run ≠ .faulted := not_not.mpr ((step_run_eq_faulted h).mpr hf)
    rw [hrecord]
    exact ⟨iff_of_false nofun hfaults, nofun, fun n => by rw [State.traceFor_succ_of_next h, hrecord]⟩

/-! ## The launch state (R116) -/

theorem Memory.wf_loadFrom {m : Memory} (hm : m.wf) (a : Nat) (ws : List Word) : (m.loadFrom a ws).wf := by
  induction ws generalizing m a with
  | nil => exact hm
  | cons w ws ih => exact ih (Memory.wf_writeWord hm _ w) (a + 1)

/-- Words loaded from address `a` on, within the store, are read from there on; below `a` and behind them the
store is as before. -/
theorem Memory.readWord_loadFrom {m : Memory} (hm : m.wf) {a : Nat} {ws : List Word}
    (h : a + ws.length ≤ Config.imemWords) (b : Byte) :
    (m.loadFrom a ws).readWord b =
      if b.toNat < a then m.readWord b else ws.getD (b.toNat - a) (m.readWord b) := by
  induction ws generalizing m a with
  | nil => simp [Memory.loadFrom]
  | cons w ws ih =>
    simp only [List.length_cons, Config.imemWords] at h
    have ha : (BitVec.ofNat 8 a).toNat = a := by rw [BitVec.toNat_ofNat]; omega
    have heq : b = BitVec.ofNat 8 a ↔ b.toNat = a := by rw [← BitVec.toNat_inj, ha]
    rw [Memory.loadFrom, ih (Memory.wf_writeWord hm _ w) (by simp only [Config.imemWords]; omega),
      Memory.readWord_writeWord hm]
    rcases Nat.lt_trichotomy b.toNat a with hlt | rfl | hgt
    · rw [if_pos (by omega), if_neg (by rw [heq]; omega), if_pos hlt]
    · rw [if_pos (by omega), if_pos (heq.mpr rfl), if_neg (lt_irrefl _), Nat.sub_self, List.getD_cons_zero]
    · rw [if_neg (by omega), if_neg (by rw [heq]; omega), if_neg (by omega),
        show b.toNat - a = b.toNat - (a + 1) + 1 by omega, List.getD_cons_succ]

theorem Memory.ofWords_of_le {ws : List Word} (h : ws.length ≤ Config.imemWords) :
    Memory.ofWords ws = some (Memory.loadFrom [] 0 ws) := if_pos h

theorem Memory.ofWords_of_gt {ws : List Word} (h : Config.imemWords < ws.length) : Memory.ofWords ws = none :=
  if_neg (not_le.mpr h)

/-- A store of given words reads them from address 0 on, and 0 elsewhere. -/
theorem Memory.readWord_loadFrom_nil {ws : List Word} (h : ws.length ≤ Config.imemWords) (b : Byte) :
    (Memory.loadFrom [] 0 ws).readWord b = ws.getD b.toNat 0 := by
  rw [Memory.readWord_loadFrom Memory.wf_nil (by rwa [Nat.zero_add]), if_neg (Nat.not_lt_zero _), Nat.sub_zero,
    Memory.readWord_nil]

/-- Settles O47: two stores of given words, the rest as after reset; a list that does not fit gives no store. -/
theorem launchStateHoldsTheProgram : Obligations.LaunchStateHoldsTheProgram := by
  intro program data regs
  refine ⟨fun hp hd => ?launch, ?refuse⟩
  case launch =>
    have hlaunch : State.launch program regs data = some { State.reset with
        regs := regs, imem := Memory.loadFrom [] 0 program, dmem := Memory.loadFrom [] 0 data } := by
      rw [State.launch, Memory.ofWords_of_le hp, Memory.ofWords_of_le hd]
    exact ⟨_, hlaunch, rfl, rfl, rfl, rfl, Memory.readWord_loadFrom_nil hp, Memory.readWord_loadFrom_nil hd,
      .of_running rfl (Memory.wf_loadFrom Memory.wf_nil 0 program) (Memory.wf_loadFrom Memory.wf_nil 0 data)
        (Nat.zero_le _)⟩
  case refuse =>
    rintro (hp | hd)
    · rw [State.launch, Memory.ofWords_of_gt hp]
    · rw [State.launch, Memory.ofWords_of_gt hd]
      cases Memory.ofWords program <;> rfl

/-! ## The final report (R121) -/

/-- Settles O48, by the run state. -/
theorem finalReportIsMadeWhenHalted : Obligations.FinalReportIsMadeWhenHalted := by
  intro s
  cases h : s.run with
  | halted => exact ⟨fun _ => by rw [State.finalReport, h], fun hne => absurd rfl hne⟩
  | running | faulted => exact ⟨nofun, fun _ => by rw [State.finalReport, h]⟩

/-! ## The harness (log entry 6) -/

@[simp] theorem tableWord_toNat (w : Word) : tableWord 16 w.toNat = w := by
  rw [tableWord, Nat.mod_eq_of_lt w.isLt, BitVec.ofNat_toNat, BitVec.setWidth_eq]

theorem decodeTableWord_toNat (w : Word) : decodeTableWord 16 w.toNat = some (decode w) := by
  simp [decodeTableWord, decodeBytes]

/-- The step after a word is placed fetches that word and executes it. -/
theorem step_placeWord {s : State} (hs : s.imem.wf) (w : Word) :
    step (s.placeWord w) = exec (decode w) (s.placeWord w).advance := by
  rw [step_of_pc_eq (State.run_placeWord s w) (toNat_zext16 (s.pc.setWidth 8)), State.imem_placeWord,
    Memory.readWord_writeWord_self hs]

/-- Settles O11: the word placed is the word itself, and placing it leaves a pc inside the store. -/
theorem placedWordIsTheOneExecuted : Obligations.PlacedWordIsTheOneExecuted := by
  intro s w hs
  rw [State.withFetchWord, tableWord_toNat]
  exact ⟨step_placeWord hs w, decodeTableWord_toNat w, fun hpc => zext16_setWidth_of_lt (Nat.lt_succ_of_le hpc),
    rfl, fun _ => rfl, rfl⟩

end Sys2Proof.Machine

/-! PROOFS. The step refines the pseudocode of spec/40_execution_cycle.md R72: the tuple of the next state is
what the pseudocode computes from the tuple of the state before. -/

namespace Sys2Proof.Machine

/-! ## The tuple after each update of the state -/

theorem tuple_setReg (s : State) (a : RegIx) (v : Word) :
    (s.setReg a v).tuple = s.tuple.setX a.toFin v.toNat := by
  have hx : (s.setReg a v).tuple.x = Function.update s.tuple.x a.toFin v.toNat := by
    funext i
    have hi : BitVec.ofFin i = a ↔ i = a.toFin := ⟨fun h => h ▸ rfl, fun h => h ▸ rfl⟩
    rw [Function.update_apply]
    simp only [State.tuple, State.reg_setReg, hi]
    split <;> rfl
  exact congrArg (fun x => { s.tuple with x := x }) hx

theorem tuple_memWrite {s : State} (hs : s.dmem.wf) (a : Byte) (v : Word) :
    (s.memWrite a v).tuple = { s.tuple with dmem := Function.update s.tuple.dmem a.toFin v.toNat } := by
  have hdmem : (s.memWrite a v).tuple.dmem = Function.update s.tuple.dmem a.toFin v.toNat := by
    funext i
    have hi : BitVec.ofFin i = a ↔ i = a.toFin := ⟨fun h => h ▸ rfl, fun h => h ▸ rfl⟩
    rw [Function.update_apply]
    simp only [State.tuple, State.dmem_memWrite, Memory.readWord_writeWord hs, hi]
    split <;> rfl
  exact congrArg (fun m => { s.tuple with dmem := m }) hdmem

theorem tuple_setPc (s : State) (p : Word) : (s.setPc p).tuple = { s.tuple with pc := p.toNat } := rfl

theorem tuple_setFlag (s : State) (b : Bool) :
    (s.setFlag b).tuple = { s.tuple with flag := if b then 1 else 0 } := rfl

theorem tuple_setRun (s : State) (r : RunState) : (s.setRun r).tuple = { s.tuple with run := r } := rfl

theorem tuple_advance {s : State} (h : s.pc.toNat < Config.imemWords) :
    s.advance.tuple = { s.tuple with pc := s.tuple.pc + 1 } :=
  congrArg (fun p => { s.tuple with pc := p }) (toNat_pc_advance h)

/-- The tuple's flag is 1 exactly when the flag is set. -/
theorem tuple_flag_eq_one {s : State} : s.tuple.flag = 1 ↔ s.flag = true := by
  simp only [State.tuple]
  split <;> simp [*]

/-! ## The values of the ALU as numbers (R78) -/

theorem toNat_sub_word (x y : Word) : (x - y).toNat = (x.toNat + 65536 - y.toNat) % 65536 := by
  have := y.isLt
  rw [BitVec.toNat_sub]
  omega

theorem toNat_aluSl (x : Word) : (aluSl x).toNat = (x.toNat <<< 1) &&& 0xFFFF := by
  rw [aluSl, BitVec.toNat_shiftLeft]
  exact (Nat.and_two_pow_sub_one_eq_mod _ 16).symm

theorem toNat_aluSr (x : Word) : (aluSr x).toNat = x.toNat >>> 1 := BitVec.toNat_ushiftRight x 1

theorem toNat_aluSra (x : Word) : (aluSra x).toNat = (x.toNat &&& 0x8000) ||| (x.toNat >>> 1) := by
  rw [aluSra, BitVec.toNat_or, BitVec.toNat_and, BitVec.toNat_ushiftRight]
  rfl

theorem toNat_aluLdl (x : Word) (i : Byte) : (aluLdl x i).toNat = (x.toNat &&& 0xFF00) ||| i.toNat := by
  rw [aluLdl, BitVec.toNat_or, BitVec.toNat_and, toNat_zext16]
  rfl

theorem toNat_aluLdh (x : Word) (i : Byte) : (aluLdh x i).toNat = (i.toNat <<< 8) ||| (x.toNat &&& 0x00FF) := by
  have hi : i.toNat <<< 8 < 2 ^ 16 := by have := i.isLt; rw [Nat.shiftLeft_eq]; omega
  rw [aluLdh, BitVec.toNat_or, BitVec.toNat_and, BitVec.toNat_shiftLeft, toNat_zext16, Nat.mod_eq_of_lt hi]
  rfl

/-! ## The fields of a word as numbers (R50 to R53) -/

theorem ofNat_div_256 (w : Word) : Fin.ofNat 8 (w.toNat / 256) = (ra w).toFin :=
  Fin.ext (toNat_ra w).symm

theorem ofNat_div_32 (w : Word) : Fin.ofNat 8 (w.toNat / 32) = (rb w).toFin :=
  Fin.ext (toNat_rb w).symm

theorem ofNat_256 (w : Word) : Fin.ofNat 256 w.toNat = (imm w).toFin :=
  Fin.ext (toNat_imm w).symm

/-- The pseudocode compares the opcode field with the table, whose values are distinct. -/
theorem div_2048_eq_opcodeOf {w : Word} {op : Op} (h : opcodeOf op = opc w) (op' : Op) :
    w.toNat / 2048 = (opcodeOf op').toNat ↔ op = op' := by
  rw [← toNat_opc, ← h, BitVec.toNat_inj]
  exact ⟨opcodeOf_injective, congrArg opcodeOf⟩

/-! ## The execution of an instruction -/

/-- An unassigned opcode falls through the whole `case`. -/
theorem Tuple.execute_of_unassigned {w : Word} (h : Config.numOps ≤ (opc w).toNat) (p : Tuple) :
    p.execute w.toNat = p := by
  have hne : ∀ op, w.toNat / 2048 ≠ (opcodeOf op).toNat := by
    intro op
    rw [← toNat_opc, Ne, BitVec.toNat_inj]
    exact ne_opcodeOf_of_numOps_le h op
  simp only [Tuple.execute, hne, if_false]

theorem tuple_exec_instrOf {op : Op} {w : Word} {s t : State} (hs : s.dmem.wf) (hop : opcodeOf op = opc w)
    (h : exec (instrOf op w) s = .next t) : t.tuple = s.tuple.execute w.toNat := by
  simp only [Tuple.execute, div_2048_eq_opcodeOf hop, ofNat_div_256, ofNat_div_32, ofNat_256]
  cases op <;> simp only [reduceCtorEq, if_false, if_true]
  case je =>
    obtain ⟨hf, rfl⟩ | ⟨hf, rfl⟩ := exec_je_cases h
    · rw [if_pos (tuple_flag_eq_one.mpr hf), tuple_setPc, toNat_zext16]; rfl
    · rw [if_neg (by simp [tuple_flag_eq_one, hf])]
  all_goals obtain rfl := Host.Outcome.next.inj h
  case mov | ld => exact tuple_setReg s _ _
  case add => exact (tuple_setReg s _ _).trans (congrArg _ (BitVec.toNat_add _ _))
  case sub => exact (tuple_setReg s _ _).trans (congrArg _ (toNat_sub_word _ _))
  case and => exact (tuple_setReg s _ _).trans (congrArg _ (BitVec.toNat_and _ _))
  case or => exact (tuple_setReg s _ _).trans (congrArg _ (BitVec.toNat_or _ _))
  case sl => exact (tuple_setReg s _ _).trans (congrArg _ (toNat_aluSl _))
  case sr => exact (tuple_setReg s _ _).trans (congrArg _ (toNat_aluSr _))
  case sra => exact (tuple_setReg s _ _).trans (congrArg _ (toNat_aluSra _))
  case ldl => exact (tuple_setReg s _ _).trans (congrArg _ (toNat_aluLdl _ _))
  case ldh => exact (tuple_setReg s _ _).trans (congrArg _ (toNat_aluLdh _ _))
  case cmp =>
    have hflag : (if (s.reg (ra w) == s.reg (rb w)) = true then 1 else 0 : Nat) =
        if (s.reg (ra w)).toNat = (s.reg (rb w)).toNat then 1 else 0 := by
      simp only [beq_iff_eq, BitVec.toNat_inj]
    exact (tuple_setFlag s _).trans (congrArg (fun f => { s.tuple with flag := f }) hflag)
  case jmp => exact (tuple_setPc s _).trans (congrArg (fun p => { s.tuple with pc := p }) (toNat_zext16 _))
  case st => exact tuple_memWrite hs _ _
  case hlt => exact tuple_setRun s .halted

/-- The `case opc(w)` of the pseudocode is the execution of the decoded word. -/
theorem tuple_exec_decode {w : Word} {s t : State} (hs : s.dmem.wf) (h : exec (decode w) s = .next t) :
    t.tuple = s.tuple.execute w.toNat := by
  obtain ⟨op, hop, hdecode⟩ | ⟨hge, hdecode⟩ := decode_cases w
  · exact tuple_exec_instrOf hs hop (hdecode ▸ h)
  · rw [hdecode, exec_unassigned] at h
    obtain rfl := Host.Outcome.next.inj h
    exact (Tuple.execute_of_unassigned hge _).symm

/-! ## The step -/

/-- The word that the pseudocode reads at pc is the fetched word. -/
theorem tuple_imem_pc {s : State} {w : Word} (hf : s.iFetch = some w) :
    s.tuple.imem (Fin.ofNat 256 s.tuple.pc) = w.toNat := by
  have hw := (State.iFetch_eq_some.mp hf).2
  have hpc : BitVec.ofFin (Fin.ofNat 256 s.pc.toNat) = s.pc.setWidth 8 :=
    BitVec.eq_of_toNat_eq (BitVec.toNat_setWidth 8 s.pc).symm
  simp only [State.tuple, hpc, hw]

/-- An executed instruction, with the advance before it, is the pseudocode's step, and its record is the
pseudocode's. -/
theorem tuple_step_of_iFetch_eq_some {s t : State} {w : Word} (hs : s.dmem.wf) (hr : s.run = .running)
    (hf : s.iFetch = some w) (h : exec (decode w) s.advance = .next t) :
    t.tuple = s.tuple.step ∧ s.traceRecord.map TraceRecord.values = s.tuple.emitted := by
  have hlt := (State.iFetch_eq_some.mp hf).1
  have hpc : ¬255 < s.tuple.pc := Nat.not_lt.mpr (Nat.le_of_lt_succ hlt)
  rw [Tuple.step, Tuple.emitted, if_neg hpc, if_neg hpc, tuple_imem_pc hf, ← tuple_advance hlt,
    State.traceRecord_of_iFetch_eq_some hr hf]
  exact ⟨tuple_exec_decode (s := s.advance) hs h, rfl⟩

/-- The fetch fault is the pseudocode's, without a record. -/
theorem tuple_step_of_iFetch_eq_none {s : State} (hr : s.run = .running) (hf : s.iFetch = none) :
    s.raiseFetchOutOfRange.tuple = s.tuple.step ∧
      s.traceRecord.map TraceRecord.values = s.tuple.emitted := by
  have hpc : 255 < s.tuple.pc := State.iFetch_eq_none.mp hf
  rw [Tuple.step, Tuple.emitted, if_pos hpc, if_pos hpc, State.traceRecord_of_iFetch_eq_none hr hf]
  exact ⟨tuple_setRun s .faulted, rfl⟩

/-- Settles O10: a step exists in RUNNING only, and there it is an executed instruction or the fetch fault. -/
theorem stepFollowsThePseudocode : Obligations.StepFollowsThePseudocode := by
  refine ⟨fun s hr hs => ?_, fun s t hr h => hr (step_cases h).1⟩
  obtain ⟨t, ht⟩ := step_next hr
  refine ⟨t, ht, ?_⟩
  obtain ⟨-, ⟨w, hf, hexec⟩ | ⟨hf, rfl⟩⟩ := step_cases ht
  · exact tuple_step_of_iFetch_eq_some hs hr hf hexec
  · exact tuple_step_of_iFetch_eq_none hr hf

end Sys2Proof.Machine
